-- ==== Sys2Proof/Word.lean ====
section
/-! DEFINITION. The widths of the block's words, at the spec's decided parameter values (00_scope.md R10, R12, R13; log 2). -/

namespace Sys2Proof

/-- A command word `cmd[71:0]` (30_encoding.md R70). -/
abbrev CommandWord := BitVec 72

/-- A response word `res[63:0]` (R77). -/
abbrev Response := BitVec 64

/-- An opcode `cmd[71:64]` (R70). -/
abbrev Opcode := BitVec 8

/-- One stored sample, `SW = 8` bits (R12). -/
abbrev Sample := BitVec 8

/-- A code word, `W = 32` bits (R10). -/
abbrev CodeWord := BitVec 32

/-- A sample counter, `CW = 32` bits, unsigned (R13). -/
abbrev Count := BitVec 32

/-- An `FMT` value as the machine holds it: its binary64 pattern `bits64(v)` (R13, R17). -/
abbrev F64 := BitVec 64

/-- One bit as an unsigned field of width `w`. -/
def bit (w : Nat) (b : Bool) : BitVec w := if b then 1#w else 0#w

end Sys2Proof
end

