-- ==== Sys2Proof/Syntax.lean ====
section
/-! DEFINITION. The 18 commands (30_encoding.md R73), one constructor per row of the opcode table.
An operand has exactly the bits its format uses (R71, R72), so a reserved operand bit cannot be written. -/

namespace Sys2Proof

/-- A legal command with its operand. -/
inductive Instr where
  | stat                  -- read status and fault record (R170)
  | bclr                  -- clear the buffer (R101)
  | bwr (s : Sample)      -- write a sample (R102)
  | bavl                  -- count of unread samples (R103)
  | brd                   -- read a sample (R104)
  | bsave                 -- save the read point (R105)
  | bret                  -- return to the read point (R106)
  | ldi (v : F64)         -- load the sample interval (R120)
  | lds (v : F64)         -- load the keying speed (R121)
  | ldc (c : CodeWord)    -- load the code word (R122)
  | srst                  -- reset the sampler (R123)
  | srem                  -- samples remaining (R124)
  | sget                  -- next sample (R125)
  | cmp                   -- compare (R150)
  | clsf                  -- symbol search (R153)
  | rdsc                  -- read SCORE (R154)
  | rdbest                -- read the best entry (R155)
  | rdberr                -- read BESTERR (R156)
  deriving DecidableEq, Repr

end Sys2Proof
end

