-- ==== Sys2Proof/WellFormed.lean ====
section
/-! DEFINITION. Which command words are well formed: the opcode table as match and mask pairs (30_encoding.md R71, R74, R75).
An `Instr` is well formed by its type; this file says which of the `2^72` words are. -/

namespace Sys2Proof

/-- The four operand formats (R71). -/
inductive Format where
  | z   -- no operand
  | s   -- one sample
  | c   -- one code word
  | v   -- one `FMT` value
  deriving DecidableEq, Repr

/-- The `arg` bits that must be zero in a format (R71, at `SW = 8`, `W = 32`). -/
def Format.mustBeZero : Format → BitVec 64
  | .z => 0xFFFFFFFFFFFFFFFF#64
  | .s => 0xFFFFFFFFFFFFFF00#64
  | .c => 0xFFFFFFFF00000000#64
  | .v => 0#64

/-- The 72-bit mask of a format's match and mask pair (R74). -/
def Format.mask : Format → CommandWord
  | .z => 0xFFFFFFFFFFFFFFFFFF#72
  | .s => 0xFFFFFFFFFFFFFFFF00#72
  | .c => 0xFFFFFFFFFF00000000#72
  | .v => 0xFF0000000000000000#72

/-- The opcode map (R73): opcode and format of each row. -/
def opcodeRows : List (Opcode × Format) :=
  [(0x01#8, .z)]
  ++ [(0x10#8, .z), (0x11#8, .s), (0x12#8, .z), (0x13#8, .z), (0x14#8, .z), (0x15#8, .z)]
  ++ [(0x20#8, .v), (0x21#8, .v), (0x22#8, .c), (0x23#8, .z), (0x24#8, .z), (0x25#8, .z)]
  ++ [(0x30#8, .z), (0x31#8, .z), (0x32#8, .z), (0x33#8, .z), (0x34#8, .z)]

/-- A word fits a row when its masked bits are `op << 64` (R74). -/
def fitsRow (w : CommandWord) (r : Opcode × Format) : Bool :=
  w &&& r.2.mask == r.1.zeroExtend 72 <<< 64

/-- A well-formed command word: it fits some row of the opcode map; every other word is reserved (R75). -/
def legalWord (w : CommandWord) : Bool := opcodeRows.any (fitsRow w)

end Sys2Proof
end

