-- ==== Sys2Proof/Decode.lean ====
section
/-! DEFINITION. Decoding of a 72-bit command word (30_encoding.md R70 to R76), and the encoder written from the same
tables. -/

namespace Sys2Proof

/-- Field `op` of a command word (R70). -/
def opOf (w : CommandWord) : Opcode := w.extractLsb' 64 8

/-- Field `arg` of a command word (R70). -/
def argOf (w : CommandWord) : BitVec 64 := w.extractLsb' 0 64

/-- Why a word is reserved (R75). -/
inductive Illegal where
  | reservedOpcode        -- the opcode is not in the map
  | reservedOperandBit    -- a bit that the format requires to be zero is set
  deriving DecidableEq, Repr

/-- What decoding a word gives: exactly one command, or illegal (R74). -/
inductive Decoded where
  | command (i : Instr)
  | illegal (r : Illegal)
  deriving DecidableEq, Repr

/-- The command an opcode names, with its operand taken from `arg` (R72, R73). -/
def commandOf (op : Opcode) (arg : BitVec 64) : Option Instr :=
  match op with
  | 0x01#8 => some .stat
  | 0x10#8 => some .bclr
  | 0x11#8 => some (.bwr (arg.extractLsb' 0 8))
  | 0x12#8 => some .bavl
  | 0x13#8 => some .brd
  | 0x14#8 => some .bsave
  | 0x15#8 => some .bret
  | 0x20#8 => some (.ldi arg)
  | 0x21#8 => some (.lds arg)
  | 0x22#8 => some (.ldc (arg.extractLsb' 0 32))
  | 0x23#8 => some .srst
  | 0x24#8 => some .srem
  | 0x25#8 => some .sget
  | 0x30#8 => some .cmp
  | 0x31#8 => some .clsf
  | 0x32#8 => some .rdsc
  | 0x33#8 => some .rdbest
  | 0x34#8 => some .rdberr
  | _ => none

/-- The format of a command (R73). -/
def Instr.format : Instr → Format
  | .bwr _ => .s
  | .ldi _ | .lds _ => .v
  | .ldc _ => .c
  | .stat | .bclr | .bavl | .brd | .bsave | .bret | .srst | .srem | .sget
  | .cmp | .clsf | .rdsc | .rdbest | .rdberr => .z

/-- Decoding, steps (1) to (4) of R74. -/
def decode (w : CommandWord) : Decoded :=
  match commandOf (opOf w) (argOf w) with
  | none => .illegal .reservedOpcode
  | some i =>
    if argOf w &&& i.format.mustBeZero = 0#64 then .command i else .illegal .reservedOperandBit

/-- The opcode of a command (R73). -/
def Instr.opcode : Instr → Opcode
  | .stat => 0x01#8
  | .bclr => 0x10#8
  | .bwr _ => 0x11#8
  | .bavl => 0x12#8
  | .brd => 0x13#8
  | .bsave => 0x14#8
  | .bret => 0x15#8
  | .ldi _ => 0x20#8
  | .lds _ => 0x21#8
  | .ldc _ => 0x22#8
  | .srst => 0x23#8
  | .srem => 0x24#8
  | .sget => 0x25#8
  | .cmp => 0x30#8
  | .clsf => 0x31#8
  | .rdsc => 0x32#8
  | .rdbest => 0x33#8
  | .rdberr => 0x34#8

/-- The operand field of a command, unused bits zero (R71, R72). -/
def Instr.operand : Instr → BitVec 64
  | .bwr s => s.zeroExtend 64
  | .ldi v | .lds v => v
  | .ldc c => c.zeroExtend 64
  | .stat | .bclr | .bavl | .brd | .bsave | .bret | .srst | .srem | .sget
  | .cmp | .clsf | .rdsc | .rdbest | .rdberr => 0#64

/-- The command word of a command: `op` in bits 71:64, `arg` in bits 63:0 (R70). -/
def encode (i : Instr) : CommandWord := i.opcode ++ i.operand

/-- The host's reader of an opcode-table row: the whole instruction is one 72-bit word, bit 0 least significant. -/
def decodeTableWord (nbits w : Nat) : Option Instr :=
  if nbits ≤ 72 then
    match decode (BitVec.ofNat 72 (w % 2 ^ nbits)) with
    | .command i => some i
    | .illegal _ => none
  else none

end Sys2Proof
end

