-- ==== Sys2Proof/Config.lean ====
section
/-! DEFINITION. What an instance of the block fixes (00_scope.md R10 to R14), and the free values of the model. -/

namespace Sys2Proof

/-- One dictionary entry: a code word and its display symbol (R14). -/
structure DictEntry where
  code : CodeWord
  sym  : BitVec 8
  deriving DecidableEq, Repr

/-- The OPEN parameters `N` and `DICT` (R11, R14) with their constraints: a zero capacity or a
dictionary that is too long is no configuration. -/
structure Config where
  capacity : Nat
  dict     : List DictEntry
  capacity_pos : 1 ≤ capacity
  dict_le : dict.length ≤ 65535
  deriving DecidableEq, Repr

/-- Instantiation: the guard of R11 (`N = 0` is refused, U6) and of R14. -/
def Config.instantiate (capacity : Nat) (dict : List DictEntry) : Option Config :=
  if h : 1 ≤ capacity ∧ dict.length ≤ 65535 then some ⟨capacity, dict, h.1, h.2⟩ else none

/-- One less than the capacity of the instance `State.reset` speaks of, left open (R11, log 1). -/
opaque Config.platformSpare : Nat

/-- The dictionary of the instance `State.reset` speaks of, left open (R14, N1, log 1). -/
opaque Config.platformDict : List DictEntry

/-- The instance behind `State.reset`: any legal configuration is a possible value (log 1). -/
def Config.platform : Config where
  capacity := Config.platformSpare + 1
  dict := Config.platformDict.take 65535
  capacity_pos := Nat.succ_pos _
  dict_le := by rw [List.length_take]; exact Nat.min_le_left ..

/-- Free value: what the `n`-th read of a never-written store cell returns (U3, D24, log 4). -/
opaque Config.freeSample : Nat → Sample

/-- Free value: sign and fraction payload of the quiet NaN that an operation on two patterns gives (log 9). -/
opaque Config.freeNan : F64 → F64 → BitVec 52

/-- Free value: what BAVL answers for a count that needs more than 64 bits (R103, R77, log 16). -/
opaque Config.freeCount : Nat → Response

/-- Free value: the carry decision on an accumulator that is a NaN, which no run reaches (log 10). -/
opaque Config.freeCarry : F64 → F64 → Bool

end Sys2Proof
end

