-- ==== Sys2Proof/Machine/State.lean ====
section
/-! DEFINITION. The state of the block (10_state.md R20 to R37), what the host does to it, and the state after reset.
Plain data throughout: the five groups are the spec's own (BUF, SMP, operand, result and fault registers). -/

namespace Sys2Proof.Machine

/-- BUF, the circular sample buffer (R23 to R26). Cursors are cell indices (log 13). -/
structure Buf where
  store  : List Host.Cell   -- `Store`: the cells written since reset, indices strictly rising
  rd     : Nat              -- read cursor
  wr     : Nat              -- write cursor
  full   : Bool
  ckRd   : Nat              -- saved read cursor
  ckFull : Bool             -- saved full flag
  ckv    : Bool             -- checkpoint valid
  draws  : Nat              -- the model's own: free draws taken so far (log 5)
  deriving DecidableEq, Repr

/-- SMP, the waveform sampler (R28, R29). -/
structure Smp where
  wcode   : CodeWord   -- remaining working code
  wlen    : Nat        -- remaining bit-length, `0 .. W`
  spdit   : F64        -- samples per dit
  dps     : F64        -- dits per sample
  fracAcc : F64        -- fractional accumulator
  intAcc  : Count      -- integer accumulator
  rem     : Count      -- samples remaining
  sInit   : Bool       -- reset at least once
  deriving DecidableEq, Repr

/-- The operand registers (R30). -/
structure Operands where
  itv : F64        -- sample interval in milliseconds
  spd : F64        -- keying speed in words per minute
  cwr : CodeWord   -- code word
  deriving DecidableEq, Repr

/-- The classifier result registers (R31). -/
structure Results where
  score   : F64         -- score of the most recent completed compare
  bestv   : Bool        -- the last completed search selected an entry
  bestidx : BitVec 16   -- its index
  bestsym : BitVec 8    -- its symbol
  besterr : F64         -- its score
  undr    : Bool        -- underrun
  deriving DecidableEq, Repr

/-- The fault registers (R32). -/
structure FaultRegs where
  fault : Bool
  cause : BitVec 4
  fop   : BitVec 8
  fidx  : BitVec 16
  deriving DecidableEq, Repr

/-- What the host may do (R20): present a command word, or assert reset. -/
inductive HostAction where
  | command (w : CommandWord)
  | reset
  deriving DecidableEq, Repr

/-- The whole machine. -/
structure State where
  cfg  : Config             -- `N` and `DICT`, never changed (R10, log 1)
  buf  : Buf
  smp  : Smp
  opr  : Operands
  cls  : Results
  flt  : FaultRegs
  rsp  : Option Response    -- the response word, if one has been presented (R171, R77, log 7)
  host : List HostAction    -- what the host will do next, in order (R172, log 6)
  deriving DecidableEq, Repr

/-- Why a step can stop. The block's own faults (R181) are no such stop: fault entry is a next state (R184). -/
inductive Fault where
  /-- Raised by BWR, BRD, CMP and CLSF when the cursor they would access a cell with is not below `N`, so
  that the cell does not exist (R51). Safe: the model stops, and no state a run reaches is such a state (R24; log 8). -/
  | cellOutsideStore (index : Nat)
  deriving DecidableEq, Repr

/-- Why a command has no meaning. -/
inductive Refusal where
  /-- Raised by no command: every row of the opcode table has its meaning. Safe. -/
  | notModelled (mnemonic : String)
  deriving DecidableEq, Repr

/-- The block of configuration `cfg` right after reset (R37, R200). The checkpoint position and the sampler
elements, which the spec leaves unspecified, are 0 (log 3). No cell has been written. -/
def State.resetOf (cfg : Config) : State where
  cfg := cfg
  buf := { store := [], rd := 0, wr := 0, full := false, ckRd := 0, ckFull := false, ckv := false, draws := 0 }
  smp := { wcode := 0#32, wlen := 0, spdit := 0#64, dps := 0#64, fracAcc := 0#64, intAcc := 0#32,
           rem := 0#32, sInit := false }
  opr := { itv := 0#64, spd := 0#64, cwr := 0#32 }
  cls := { score := 0#64, bestv := false, bestidx := 0#16, bestsym := 0#8, besterr := 0#64, undr := false }
  flt := { fault := false, cause := 0#4, fop := 0#8, fidx := 0#16 }
  rsp := none
  host := []

/-- The machine right after reset, its configuration left open (R11, R14, R200; log 1). -/
def State.reset : State := State.resetOf Config.platform

end Sys2Proof.Machine
end

