-- ==== Sys2Proof/Machine/Ops.lean ====
section
/-! DEFINITION. The shared operations: the sample store, the buffer procedures `Avail()` and `BufRead()`, the response,
fault entry, the gate on the faulted condition, and hardware reset. -/

namespace Sys2Proof.Machine

/-- The outcome of a command. -/
abbrev Result := Host.Outcome State Fault Refusal

/-! ### The sample store -/

/-- What an unlisted cell holds: no value, since nothing has written it (R37). -/
def Memory.unlisted : Option Sample := none

/-- Cell `i` of the store (R23). -/
def Memory.read (i : Nat) : List Host.Cell → Option Sample
  | [] => Memory.unlisted
  | (j, v) :: m => if i = j then some v else Memory.read i m

/-- `Store[i] <- v` (R18), keeping the indices strictly rising. -/
def Memory.write (i : Nat) (v : Sample) : List Host.Cell → List Host.Cell
  | [] => [(i, v)]
  | (j, u) :: m =>
    if i < j then (i, v) :: (j, u) :: m
    else if i = j then (i, v) :: m
    else (j, u) :: Memory.write i v m

/-- All indices of `m` are above `i`. -/
def Memory.above (i : Nat) (m : List Host.Cell) : Bool := m.all fun c => decide (i < c.1)

/-- The canonical form: indices strictly rising. Every listed cell has been written, so none equals `Memory.unlisted`. -/
def Memory.wf : List Host.Cell → Bool
  | [] => true
  | (j, _) :: m => Memory.above j m && Memory.wf m

/-- Every listed cell is one of the `n` cells of the store (R51). -/
def Memory.within (n : Nat) (m : List Host.Cell) : Bool := m.all fun c => decide (c.1 < n)

/-! ### The widths of cursor and count -/

/-- `ceil(log2(n))` for `n >= 1`. -/
def ceilLog2 (n : Nat) : Nat := if n ≤ 1 then 0 else Nat.log2 (n - 1) + 1

/-- `AW`, the bits of a cursor of a buffer of `n` cells (R11, R24). -/
def cursorWidth (n : Nat) : Nat := max 1 (ceilLog2 n)

/-- The bits of the count of a buffer of `n` cells (R11). -/
def countWidth (n : Nat) : Nat := ceilLog2 (n + 1)

/-! ### The buffer procedures -/

/-- The cursor advance `(c + 1) mod N` (R24, R51). -/
def advance (n c : Nat) : Nat := (c + 1) % n

/-- The buffer is empty (R25). -/
def Buf.empty (b : Buf) : Bool := decide (b.rd = b.wr) && !b.full

/-- `Avail()`: the count of BAVL (R103). -/
def Buf.avail (n : Nat) (b : Buf) : Nat :=
  if b.full then n
  else if b.rd ≤ b.wr then b.wr - b.rd
  else n - b.rd + b.wr

/-- A read of the buffer accesses no cell that does not exist: there is nothing to read, or `rd` is a cell (R51, log 8). -/
def Buf.readable (n : Nat) (b : Buf) : Bool := b.empty || decide (b.rd < n)

/-- `Store[rd]`. A cell never written since reset gives a free draw (U3, log 4). -/
def Buf.load (b : Buf) : Sample × Buf :=
  match Memory.read b.rd b.store with
  | some v => (v, b)
  | none => (Config.freeSample b.draws, { b with draws := b.draws + 1 })

/-- `BufRead()` (R104): the sentinel 0 with nothing changed when the buffer is empty. -/
def Buf.read (n : Nat) (b : Buf) : Sample × Buf :=
  if b.empty then (0#8, b)
  else (b.load.1, { b.load.2 with rd := advance n b.rd, full := false })

/-- The four steps of BWR in their order (R102). -/
def Buf.push (n : Nat) (s : Sample) (b : Buf) : Buf :=
  let rd := if b.full then advance n b.rd else b.rd
  let wr := advance n b.wr
  { b with store := Memory.write b.wr s b.store, rd := rd, wr := wr, full := decide (wr = rd) }

/-- `saveReadPoint` (R105). -/
def Buf.save (b : Buf) : Buf := { b with ckRd := b.rd, ckFull := b.full, ckv := true }

/-- `returnToReadPoint`: the blind restore (R106, R204). -/
def Buf.restore (b : Buf) : Buf := { b with rd := b.ckRd, full := b.ckFull }

/-! ### Response, faults, reset -/

/-- `res <- v` at the end of a command (R18, R77). -/
def State.respond (s : State) (v : Response) : State := { s with rsp := some v }

/-- The fault causes (R181). -/
inductive Cause where
  | illegalCommand
  | noCheckpoint
  | badTiming
  | countOverflow
  | samplerUninit
  | zeroCount
  deriving DecidableEq, Repr

/-- The code of a cause (R181). -/
def Cause.code : Cause → BitVec 4
  | .illegalCommand => 1#4
  | .noCheckpoint => 2#4
  | .badTiming => 3#4
  | .countOverflow => 4#4
  | .samplerUninit => 5#4
  | .zeroCount => 6#4

/-- Fault entry, `raise Fault(c)` for the command of opcode `op` (R182, R184). `i` is the dictionary index being
processed inside CLSF, else 0. -/
def State.raise (s : State) (c : Cause) (op : Opcode) (i : Nat) : State :=
  { s with flt := { fault := true, cause := c.code, fop := op, fidx := BitVec.ofNat 16 i }, rsp := some 0#64 }

/-- The gate of R173: while `FAULT = 1` a command changes nothing and answers 0. -/
def whenLive (s : State) (body : Result) : Result :=
  if s.flt.fault then .next (s.respond 0#64) else body

/-- Hardware reset (R200): every element at its reset value, no response, the configuration kept. Cells written
before are unspecified again (R201), and later draws stay fresh (log 5). -/
def State.hwReset (s : State) : State :=
  let r := State.resetOf s.cfg
  { r with buf := { r.buf with draws := s.buf.draws }, host := s.host }

end Sys2Proof.Machine
end

