-- ==== Sys2Proof/Machine/Flags.lean ====
section
/-! DEFINITION. The derived flags and the STATUS word (10_state.md R33, R34). The stored flags are fields of the state. -/

namespace Sys2Proof.Machine

/-- `SDONE`: the sampler has been reset and is exhausted (R33). -/
def Smp.done (g : Smp) : Bool := g.sInit && decide (g.rem = 0#32)

/-- `STATUS` (R33), bit 15 first. -/
def State.status (s : State) : BitVec 16 :=
  0#4 ++ s.flt.cause ++ bit 1 s.flt.fault ++ bit 1 s.cls.bestv ++ bit 1 s.cls.undr ++ bit 1 s.smp.done
    ++ bit 1 s.smp.sInit ++ bit 1 s.buf.ckv ++ bit 1 s.buf.empty ++ bit 1 s.buf.full

/-- `UNDR` after a compare over `count` samples: set on underrun, else as it was (R150, R152). -/
def undrAfter (undr : Bool) (count avail : Nat) : Bool := undr || decide (avail < count)

end Sys2Proof.Machine
end

