-- ==== Sys2Proof/Machine/Operands.lean ====
section
/-! DEFINITION. The operand registers' loads and the assembly of response words (30_encoding.md R72, R73, R77).
The operand forms themselves (formats Z, S, C, V) are taken apart once, by `decode`. -/

namespace Sys2Proof.Machine

/-- A count zero-extended (R77, R103). The spec bounds neither `N` nor the count and gives no response for a count that
needs more than 64 bits: there the response is free (DESIGN CHOICE, log 16). -/
def resCount (n : Nat) : Response := if n < 2 ^ 64 then BitVec.ofNat 64 n else Config.freeCount n

/-- The samples remaining, zero-extended (R77, R123, R124). -/
def resRem (c : Count) : Response := c.zeroExtend 64

/-- A sample zero-extended (R104, R111). -/
def resSample (v : Sample) : Response := v.zeroExtend 64

/-- A sampler bit zero-extended (R125). -/
def resBit (b : Bool) : Response := bit 64 b

/-- `{BESTV, BESTSYM, BESTIDX}` zero-extended (R153, R155). -/
def resBest (r : Results) : Response := 0#39 ++ bit 1 r.bestv ++ r.bestsym ++ r.bestidx

/-- `{FIDX, FOP, STATUS}` zero-extended (R170). -/
def resStat (s : State) : Response := 0#24 ++ s.flt.fidx ++ s.flt.fop ++ s.status

/-- `ITV <- v` (R120). -/
def State.loadItv (s : State) (v : F64) : State := { s with opr := { s.opr with itv := v } }

/-- `SPD <- v` (R121). -/
def State.loadSpd (s : State) (v : F64) : State := { s with opr := { s.opr with spd := v } }

/-- `CWR <- c` (R122). -/
def State.loadCwr (s : State) (c : CodeWord) : State := { s with opr := { s.opr with cwr := c } }

end Sys2Proof.Machine
end

