-- ==== Sys2Proof/Machine/Buffer.lean ====
section
/-! DEFINITION. The commands of BUF (41_buffer.md R101 to R106). -/

namespace Sys2Proof.Machine

/-- BCLR (R101). -/
def execBclr (s : State) : Result :=
  whenLive s (.next (State.respond { s with buf := { s.buf with rd := 0, wr := 0, full := false } } 0#64))

/-- BWR (R102). -/
def execBwr (v : Sample) (s : State) : Result :=
  whenLive s
    (if s.buf.wr < s.cfg.capacity then
      .next (State.respond { s with buf := s.buf.push s.cfg.capacity v } 0#64)
    else .fault (.cellOutsideStore s.buf.wr))

/-- BAVL (R103). -/
def execBavl (s : State) : Result :=
  whenLive s (.next (s.respond (resCount (s.buf.avail s.cfg.capacity))))

/-- BRD (R104). -/
def execBrd (s : State) : Result :=
  whenLive s
    (if s.buf.readable s.cfg.capacity then
      let r := s.buf.read s.cfg.capacity
      .next (State.respond { s with buf := r.2 } (resSample r.1))
    else .fault (.cellOutsideStore s.buf.rd))

/-- BSAVE (R105). -/
def execBsave (s : State) : Result :=
  whenLive s (.next (State.respond { s with buf := s.buf.save } 0#64))

/-- BRET (R106). -/
def execBret (s : State) : Result :=
  whenLive s
    (if s.buf.ckv then .next (State.respond { s with buf := s.buf.restore } 0#64)
    else .next (s.raise .noCheckpoint (Instr.opcode .bret) 0))

end Sys2Proof.Machine
end

