-- ==== Sys2Proof/Machine/Float.lean ====
section
/-! DEFINITION. IEEE 754 binary64 with round to nearest, ties to even (00_scope.md R13, R17, R126; log 11).
Every finite binary64 value is an integer multiple of `2^-1074`, so a value is its sign and that integer: each
operation is exact integer arithmetic followed by one rounding. -/

namespace Sys2Proof.Machine

/-- The value a binary64 pattern denotes. `fin neg mag` is `± mag * 2^-1074`. -/
inductive Fp where
  | nan
  | inf (neg : Bool)
  | fin (neg : Bool) (mag : Nat)
  deriving DecidableEq, Repr

/-- `1.0` in units of `2^-1074`. Irreducible so that no proof unfolds the numeral unasked. -/
@[irreducible] def Fp.unit : Nat := 2 ^ 1074

/-- `2^1024` in units of `2^-1074`: magnitudes from here on round to infinity. -/
@[irreducible] def Fp.limit : Nat := 2 ^ 2098

/-- The integer nearest to `n / d`, ties to even. -/
def roundEven (n d : Nat) : Nat :=
  let q := n / d
  let r := n % d
  if 2 * r < d then q else if d < 2 * r then q + 1 else q + q % 2

/-- `n / d` rounded to 53 significant bits, or to an integer where that is coarser. -/
def roundMag (n d : Nat) : Nat :=
  let g := 2 ^ (Nat.log2 (n / d) - 52)
  roundEven n (d * g) * g

/-- The binary64 value nearest to `± n / d` units. -/
def Fp.round (neg : Bool) (n d : Nat) : Fp :=
  let m := roundMag n d
  if m < Fp.limit then .fin neg m else .inf neg

/-- `fmt64(b)`: the value a pattern denotes (R17). -/
def fmt64 (b : F64) : Fp :=
  let neg := b.getLsbD 63
  let e := (b.extractLsb' 52 11).toNat
  let f := (b.extractLsb' 0 52).toNat
  if e = 2047 then (if f = 0 then .inf neg else .nan)
  else if e = 0 then .fin neg f
  else .fin neg (2 ^ (e - 1) * (2 ^ 52 + f))

/-- Bits 62:0 of the pattern of a finite magnitude. -/
def magBits (mag : Nat) : Nat :=
  let k := Nat.log2 mag - 52
  2 ^ 52 * k + mag / 2 ^ k

/-- `bits64(a)`: the pattern of a value (R17). A NaN has many: its sign and payload are `nan`, its quiet bit is set. -/
def bits64 (nan : BitVec 52) : Fp → F64
  | .nan => bit 1 (nan.getLsbD 51) ++ 0x7FF#11 ++ 1#1 ++ nan.extractLsb' 0 51
  | .inf neg => bit 1 neg ++ 0x7FF#11 ++ 0#52
  | .fin neg mag => bit 1 neg ++ BitVec.ofNat 63 (magBits mag)

/-- `cvt(i)` (R17). -/
def cvt (i : Nat) : Fp := Fp.round false (Fp.unit * i) 1

/-- A finite value as a signed number of units. -/
def Fp.signed (neg : Bool) (mag : Nat) : Int := if neg then -(mag : Int) else mag

/-- `fadd(a, b)` (R17). An exact zero sum is `-0` only when both operands are negative. -/
def fadd : Fp → Fp → Fp
  | .nan, _ | _, .nan => .nan
  | .inf n, .inf m => if n = m then .inf n else .nan
  | .inf n, .fin _ _ | .fin _ _, .inf n => .inf n
  | .fin n a, .fin m b =>
    let z := Fp.signed n a + Fp.signed m b
    if z = 0 then .fin (n && m) 0 else Fp.round (decide (z < 0)) z.natAbs 1

/-- `fmul(a, b)` (R17). -/
def fmul : Fp → Fp → Fp
  | .nan, _ | _, .nan => .nan
  | .inf n, .inf m => .inf (n ^^ m)
  | .inf n, .fin m b | .fin m b, .inf n => if b = 0 then .nan else .inf (n ^^ m)
  | .fin n a, .fin m b => Fp.round (n ^^ m) (a * b) Fp.unit

/-- `fdiv(a, b)` (R17). -/
def fdiv : Fp → Fp → Fp
  | .nan, _ | _, .nan => .nan
  | .inf _, .inf _ => .nan
  | .inf n, .fin m _ => .inf (n ^^ m)
  | .fin n _, .inf m => .fin (n ^^ m) 0
  | .fin n a, .fin m b =>
    if b = 0 then (if a = 0 then .nan else .inf (n ^^ m)) else Fp.round (n ^^ m) (Fp.unit * a) b

/-- The bits `k-1 .. 0` of the integer square root of `n`, below the bits already found in `r`. -/
def isqrtFrom (n : Nat) : Nat → Nat → Nat
  | 0, r => r
  | k + 1, r => isqrtFrom n k (if (r + 2 ^ k) * (r + 2 ^ k) ≤ n then r + 2 ^ k else r)

/-- The integer square root. -/
def isqrt (n : Nat) : Nat := isqrtFrom n (Nat.log2 n / 2 + 1) 0

/-- `fsqrt(a)` (R17). The root in units is irrational or an integer `r`; an irrational one is rounded as `r + 1/2`,
which lies on the same side of every rounding boundary. -/
def fsqrt : Fp → Fp
  | .nan => .nan
  | .inf neg => if neg then .nan else .inf false
  | .fin neg mag =>
    if mag = 0 then .fin neg 0
    else if neg then .nan
    else
      let r := isqrt (Fp.unit * mag)
      Fp.round false (if r * r = Fp.unit * mag then 2 * r else 2 * r + 1) 2

/-- `flt(a, b)`: IEEE less than, false on a NaN (R17). -/
def flt : Fp → Fp → Bool
  | .nan, _ | _, .nan => false
  | .inf n, .inf m => n && !m
  | .inf n, .fin _ _ => n
  | .fin _ _, .inf m => !m
  | .fin n a, .fin m b => decide (Fp.signed n a < Fp.signed m b)

/-- `fgt0(a)` (R17). -/
def fgt0 (a : Fp) : Bool := flt (.fin false 0) a

/-- `finite(a)` (R17). -/
def finite : Fp → Bool
  | .fin _ _ => true
  | .nan | .inf _ => false

/-- `ftrunc(a)` for a finite `a >= 0` (R17); 0 outside that domain, which no command reaches (log 10). -/
def ftrunc : Fp → Nat
  | .fin false mag => mag / Fp.unit
  | .fin true _ | .nan | .inf _ => 0

/-- `floor_gt(a, k)` (R17), exact on the real value that `a` denotes: the floor of a negative value is not above `k`.
A NaN denotes none and its answer is `free` (log 10). -/
def floorGt (free : Bool) (a : Fp) (k : Nat) : Bool :=
  match a with
  | .fin false mag => decide (k < mag / Fp.unit)
  | .inf false => true
  | .fin true _ | .inf true => false
  | .nan => free

end Sys2Proof.Machine
end

