-- ==== Sys2Proof/Machine/Sampler.lean ====
section
/-! DEFINITION. The commands of SMP (42_sampler.md R119 to R128) and the procedures `SmpReset` and `SmpGet`. -/

namespace Sys2Proof.Machine

/-- Step 1 of `SmpReset` (R123): shift left until the top bit is set, counting the length down. -/
def normalise : Nat → CodeWord → Nat × CodeWord
  | 0, c => (0, c)
  | l + 1, c => if c.msb then (l + 1, c) else normalise l (c <<< 1)

/-- The timing precondition: finite and greater than zero (R123, D14). -/
def validTiming (a : Fp) : Bool := finite a && fgt0 a

/-- `ditMs = fdiv(1200.0, spd)`, then `s = fdiv(ditMs, itv)` (R123 steps 2 and 3). -/
def samplesPerDit (itv spd : F64) : Fp := fdiv (fdiv (cvt 1200) (fmt64 spd)) (fmt64 itv)

/-- `total = fmul(cvt(L), s)` (R123 step 6). -/
def sampleBudget (itv spd : F64) (len : Nat) : Fp := fmul (cvt len) (samplesPerDit itv spd)

/-- `SmpReset(code)` (R123): the whole new sampler state, or the cause it raises. It reads nothing of the old
sampler state (R127). -/
def smpReset (itv spd : F64) (code : CodeWord) : Except Cause Smp :=
  if validTiming (fmt64 itv) && validTiming (fmt64 spd) then
    let n := normalise 32 code
    let s := samplesPerDit itv spd
    let total := sampleBudget itv spd n.1
    if flt total (cvt (2 ^ 32)) then
      .ok {
        wcode := n.2
        wlen := n.1
        spdit := bits64 (Config.freeNan itv spd) s
        dps := bits64 (Config.freeNan itv spd) (fdiv (cvt 1) s)
        fracAcc := 0#64
        intAcc := 0#32
        rem := BitVec.ofNat 32 (ftrunc total)
        sInit := true }
    else .error .countOverflow
  else .error .badTiming

/-- The new fractional accumulator, `fadd(fracAcc, dps)` (R125). -/
def Smp.nextFrac (g : Smp) : Fp := fadd (fmt64 g.fracAcc) (fmt64 g.dps)

/-- The carry decision of R125, taken on the new accumulator. -/
def Smp.carry (g : Smp) : Bool := floorGt (Config.freeCarry g.fracAcc g.dps) g.nextFrac g.intAcc.toNat

/-- `SmpGet()` (R125): the sample, decided before any update, and the new sampler state. -/
def Smp.get (g : Smp) : Bool × Smp :=
  if g.rem = 0#32 then (false, g)
  else
    (g.wcode.msb,
      { g with
        fracAcc := bits64 (Config.freeNan g.fracAcc g.dps) g.nextFrac
        intAcc := if g.carry then g.intAcc + 1#32 else g.intAcc
        wcode := if g.carry then g.wcode <<< 1 else g.wcode
        rem := g.rem - 1#32 })

/-- LDI (R120). -/
def execLdi (v : F64) (s : State) : Result := whenLive s (.next ((s.loadItv v).respond 0#64))

/-- LDS (R121). -/
def execLds (v : F64) (s : State) : Result := whenLive s (.next ((s.loadSpd v).respond 0#64))

/-- LDC (R122). -/
def execLdc (c : CodeWord) (s : State) : Result := whenLive s (.next ((s.loadCwr c).respond 0#64))

/-- SRST (R123). -/
def execSrst (s : State) : Result :=
  whenLive s
    (match smpReset s.opr.itv s.opr.spd s.opr.cwr with
    | .ok g => .next (State.respond { s with smp := g } (resRem g.rem))
    | .error c => .next (s.raise c (Instr.opcode .srst) 0))

/-- SREM (R124). -/
def execSrem (s : State) : Result :=
  whenLive s
    (if s.smp.sInit then .next (s.respond (resRem s.smp.rem))
    else .next (s.raise .samplerUninit (Instr.opcode .srem) 0))

/-- SGET (R125). -/
def execSget (s : State) : Result :=
  whenLive s
    (if s.smp.sInit then .next (State.respond { s with smp := s.smp.get.2 } (resBit s.smp.get.1))
    else .next (s.raise .samplerUninit (Instr.opcode .sget) 0))

end Sys2Proof.Machine
end

