-- ==== Sys2Proof/Machine/Classifier.lean ====
section
/-! DEFINITION. The commands of CLS (43_classifier.md R150 to R156), the procedure `Compare` and the symbol search. -/

namespace Sys2Proof.Machine

/-- `(b - g) * (b - g)`, exact (R151). -/
def squaredDiff (b : Sample) (g : Bool) : Nat :=
  let d : Int := (b.toNat : Int) - (if g then 1 else 0)
  (d * d).toNat

/-- The loop of `Compare()`: `count` pairs, the sum accumulated exactly (R150, R151). -/
def comparePairs (n : Nat) : Nat → Nat → Buf → Smp → Nat × Buf × Smp
  | 0, sum, b, g => (sum, b, g)
  | count + 1, sum, b, g =>
    comparePairs n count (sum + squaredDiff (b.read n).1 g.get.1) (b.read n).2 g.get.2

/-- `score = fdiv(fsqrt(cvt(sum)), cvt(count))` (R150, R151). -/
def scoreOf (sum count : Nat) : Fp := fdiv (fsqrt (cvt sum)) (cvt count)

/-- `Compare()` (R150), run with `rem > 0`: the score and the state after it, its buffer position restored. -/
def runCompare (s : State) : Fp × State :=
  let n := s.cfg.capacity
  let count := s.smp.rem.toNat
  let r := comparePairs n count 0 s.buf.save s.smp
  let score := scoreOf r.1 count
  (score,
    { s with
      buf := r.2.1.restore
      smp := r.2.2
      cls := { s.cls with
        undr := undrAfter s.cls.undr count (s.buf.avail n)
        score := bits64 (Config.freeNan s.smp.fracAcc s.smp.dps) score } })

/-- `UNDR <- 0` (R152). -/
def State.clearUndr (s : State) : State := { s with cls := { s.cls with undr := false } }

/-- CMP (R150). -/
def execCmp (s : State) : Result :=
  whenLive s
    (if !s.smp.sInit then .next (s.raise .samplerUninit (Instr.opcode .cmp) 0)
    else if s.smp.rem = 0#32 then .next (s.raise .zeroCount (Instr.opcode .cmp) 0)
    else if s.buf.readable s.cfg.capacity then
      let r := runCompare s.clearUndr
      .next (r.2.respond r.2.cls.score)
    else .fault (.cellOutsideStore s.buf.rd))

/-- The running minimum of the search, internal to CLSF (R31, R153). -/
structure Best where
  min : Fp
  bv  : Bool
  bi  : Nat
  bs  : BitVec 8
  deriving DecidableEq, Repr

/-- The start of the running minimum: `+inf`, no entry (R153, D21). -/
def Best.start : Best := { min := .inf false, bv := false, bi := 0, bs := 0#8 }

/-- Strict less-than: the first minimum wins ties (R153). -/
def Best.offer (best : Best) (score : Fp) (i : Nat) (sym : BitVec 8) : Best :=
  if flt score best.min then { min := score, bv := true, bi := i, bs := sym } else best

/-- How the loop of CLSF ends. -/
inductive SearchEnd where
  | completed (best : Best) (s : State)
  | raised (c : Cause) (i : Nat) (s : State)
  | outside (i : Nat)
  deriving DecidableEq, Repr

/-- The loop of CLSF over the entries from index `i` on (R153). A fault leaves the state as the entries before it
have brought it, and for `ZeroCount` also the sampler reset of its own entry (R184). -/
def search : List DictEntry → Nat → Best → State → SearchEnd
  | [], _, best, s => .completed best s
  | e :: es, i, best, s =>
    match smpReset s.opr.itv s.opr.spd e.code with
    | .error c => .raised c i s
    | .ok g =>
      if g.rem = 0#32 then .raised .zeroCount i { s with smp := g }
      else if s.buf.readable s.cfg.capacity then
        let r := runCompare { s with smp := g }
        search es (i + 1) (best.offer r.1 i e.sym) r.2
      else .outside s.buf.rd

/-- The result registers of a completed search (R153). -/
def State.storeBest (s : State) (best : Best) : State :=
  { s with
    cls := { s.cls with
      bestv := best.bv
      bestidx := BitVec.ofNat 16 best.bi
      bestsym := best.bs
      besterr := if best.bv then bits64 (Config.freeNan s.opr.itv s.opr.spd) best.min else 0#64 } }

/-- The search of CLSF: `UNDR` is cleared before any entry (R153). -/
def State.searchAll (s : State) : SearchEnd := search s.cfg.dict 0 Best.start s.clearUndr

/-- The search met no missing cell. -/
def SearchEnd.inStore : SearchEnd → Bool
  | .completed _ _ | .raised _ _ _ => true
  | .outside _ => false

/-- The state CLSF leaves (R153); `s` itself stands for a search that met a missing cell, which leaves none. -/
def clsfState (s : State) : State :=
  match s.searchAll with
  | .completed best t => (t.storeBest best).respond (resBest (t.storeBest best).cls)
  | .raised c i t => t.raise c (Instr.opcode .clsf) i
  | .outside _ => s

/-- CLSF (R153). -/
def execClsf (s : State) : Result :=
  whenLive s
    (if s.buf.readable s.cfg.capacity || s.searchAll.inStore then .next (clsfState s)
    else .fault (.cellOutsideStore s.buf.rd))

/-- RDSC (R154). -/
def execRdsc (s : State) : Result := whenLive s (.next (s.respond s.cls.score))

/-- RDBEST (R155). -/
def execRdbest (s : State) : Result := whenLive s (.next (s.respond (resBest s.cls)))

/-- RDBERR (R156). -/
def execRdberr (s : State) : Result := whenLive s (.next (s.respond s.cls.besterr))

end Sys2Proof.Machine
end

