-- ==== Sys2Proof/Machine/System.lean ====
section
/-! DEFINITION. STAT (44_system.md R170) and the execution of an illegal word (R75, R172, R173). -/

namespace Sys2Proof.Machine

/-- STAT (R170): the only command that executes while `FAULT = 1` (R173). -/
def execStat (s : State) : Result := .next (s.respond (resStat s))

/-- An illegal word `w`. While `FAULT = 1` a word whose opcode is STAT's still executes, its operand ignored, and
any other is ignored (R173). Otherwise `IllegalCommand` is raised (R75). -/
def execIllegal (w : CommandWord) (s : State) : Result :=
  if s.flt.fault && decide (opOf w = Instr.opcode .stat) then execStat s
  else whenLive s (.next (s.raise .illegalCommand (opOf w) 0))

end Sys2Proof.Machine
end

