-- ==== Sys2Proof/Machine/Dispatch.lean ====
section
/-! DEFINITION. One arm per command. -/

namespace Sys2Proof.Machine

def exec (i : Instr) (s : State) : Host.Outcome State Fault Refusal :=
  match i with
  | .stat => Sys2Proof.Machine.execStat s
  | .bclr => Sys2Proof.Machine.execBclr s
  | .bwr v => Sys2Proof.Machine.execBwr v s
  | .bavl => Sys2Proof.Machine.execBavl s
  | .brd => Sys2Proof.Machine.execBrd s
  | .bsave => Sys2Proof.Machine.execBsave s
  | .bret => Sys2Proof.Machine.execBret s
  | .ldi v => Sys2Proof.Machine.execLdi v s
  | .lds v => Sys2Proof.Machine.execLds v s
  | .ldc c => Sys2Proof.Machine.execLdc c s
  | .srst => Sys2Proof.Machine.execSrst s
  | .srem => Sys2Proof.Machine.execSrem s
  | .sget => Sys2Proof.Machine.execSget s
  | .cmp => Sys2Proof.Machine.execCmp s
  | .clsf => Sys2Proof.Machine.execClsf s
  | .rdsc => Sys2Proof.Machine.execRdsc s
  | .rdbest => Sys2Proof.Machine.execRdbest s
  | .rdberr => Sys2Proof.Machine.execRdberr s

end Sys2Proof.Machine
end

