-- ==== Sys2Proof/Machine/Port.lean ====
section
/-! DEFINITION. The transaction of the command port (44_system.md R172). -/

namespace Sys2Proof.Machine

/-- One accepted command word: decode, then the command or the illegal word (R172). -/
def transact (w : CommandWord) (s : State) : Result :=
  match decode w with
  | .command i => exec i s
  | .illegal _ => execIllegal w s

/-- One action of the host: a command word (R172) or reset (R200). -/
def perform (a : HostAction) (s : State) : Result :=
  match a with
  | .command w => transact w s
  | .reset => .next s.hwReset

/-- The command word of an opcode-table row: bits above `nbits` are 0. -/
def tableWord (nbits w : Nat) : CommandWord := BitVec.ofNat 72 (w % 2 ^ nbits)

end Sys2Proof.Machine
end

