-- ==== Sys2Proof/Machine/Step.lean ====
section
/-! DEFINITION. One step: the block takes the host's next action. There is no program counter and nothing to fetch (R22):
the host presents the commands (log 6). -/

namespace Sys2Proof.Machine

/-- The host's next action, or an idle step, which changes nothing (R195). -/
def step (s : State) : Host.Outcome State Fault Refusal :=
  match s.host with
  | [] => .next s
  | a :: rest => perform a { s with host := rest }

/-- The word placed where `step` takes its next command: first among the host's actions (log 6). -/
def State.withFetchWord (s : State) (nbits w : Nat) : State :=
  { s with host := .command (tableWord nbits w) :: s.host }

end Sys2Proof.Machine
end

