-- ==== Sys2Proof/Safety.lean ====
section
/-! DEFINITION. The terms claims are stated in: the machine's invariant, running several commands, and the spec's own
views of the buffer and of the sampler sequence. -/

namespace Sys2Proof.Machine

/-- A pattern of a value that is neither negative nor a NaN: `+0.0 .. +inf`. -/
def nonnegPattern (b : F64) : Bool := decide (b.toNat ≤ 0x7FF0000000000000)

/-- What holds of every state a run reaches, and is kept by every step. -/
structure State.Inv (s : State) : Prop where
  /-- The cursors are cells of the store (10_state.md R24). -/
  rd_lt : s.buf.rd < s.cfg.capacity
  wr_lt : s.buf.wr < s.cfg.capacity
  ckRd_lt : s.buf.ckRd < s.cfg.capacity
  /-- The cursors fit the `AW` bits that hold them (R11, R24; log 13). -/
  rd_bits : s.buf.rd < 2 ^ cursorWidth s.cfg.capacity
  wr_bits : s.buf.wr < 2 ^ cursorWidth s.cfg.capacity
  ckRd_bits : s.buf.ckRd < 2 ^ cursorWidth s.cfg.capacity
  /-- The store is in its canonical form, and lists only cells that exist (R51). -/
  store_wf : Memory.wf s.buf.store = true
  store_within : Memory.within s.cfg.capacity s.buf.store = true
  /-- The bit-length of a code word is at most `W` (R28). -/
  wlen_le : s.smp.wlen ≤ 32
  /-- No NaN and no negative value is ever held in the sampler (42_sampler.md R126). -/
  spdit_ok : nonnegPattern s.smp.spdit = true
  dps_ok : nonnegPattern s.smp.dps = true
  fracAcc_ok : nonnegPattern s.smp.fracAcc = true
  /-- The integer accumulator never overflows `CW` bits (R128). -/
  counters_lt : s.smp.intAcc.toNat + s.smp.rem.toNat < 2 ^ 32
  /-- A score is never negative and never a NaN (43_classifier.md R150 (d)). -/
  score_ok : nonnegPattern s.cls.score = true
  besterr_ok : nonnegPattern s.cls.besterr = true
  /-- Without a selected entry the best-entry registers read 0 (R153 (c), R155, R156). -/
  best_zero : s.cls.bestv = false → s.cls.bestidx = 0#16 ∧ s.cls.bestsym = 0#8 ∧ s.cls.besterr = 0#64
  /-- `CAUSE`, `FOP`, `FIDX` are 0 while `FAULT = 0` (R32, 44_system.md R170). -/
  record_zero : s.flt.fault = false → s.flt.cause = 0#4 ∧ s.flt.fop = 0#8 ∧ s.flt.fidx = 0#16
  /-- Only causes 1 to 6 are ever recorded (60_exceptions.md R181). -/
  cause_known : s.flt.fault = true → 1 ≤ s.flt.cause.toNat ∧ s.flt.cause.toNat ≤ 6

/-- A safe step: it answers a next state. -/
def safeStep (s : State) : Bool :=
  match step s with
  | .next _ => true
  | .fault _ | .refused _ => false

/-- The commands one after another (20_memory.md R58): the responses in order and the last state, if none stops. -/
def runCommands : List Instr → State → Option (List Response × State)
  | [], s => some ([], s)
  | i :: is, s =>
    match exec i s with
    | .next t => (runCommands is t).map fun r => (t.rsp.getD 0#64 :: r.1, r.2)
    | .fault _ => none
    | .refused _ => none

/-- Cursors in range, and full only when they meet (R24, R27 (b)). -/
def Buf.consistent (n : Nat) (b : Buf) : Bool :=
  decide (b.rd < n) && decide (b.wr < n) && (!b.full || decide (b.rd = b.wr))

/-- The unread region, oldest first (20_memory.md R51): `none` stands for a cell never written. -/
def Buf.unread (n : Nat) (b : Buf) : List (Option Sample) :=
  (List.range (b.avail n)).map fun k => Memory.read ((b.rd + k) % n) b.store

/-- Every unread cell has been written. -/
def Buf.unreadWritten (n : Nat) (b : Buf) : Bool := (b.unread n).all Option.isSome

/-- The `k`-th sample a compare takes from the buffer: unread samples first, then the sentinel 0 (R152). -/
def Buf.sampleAt (n : Nat) (b : Buf) (k : Nat) : Sample := (((b.unread n)[k]?).join).getD 0#8

/-- The sampler after `k` calls of `SmpGet`. -/
def Smp.after : Nat → Smp → Smp
  | 0, g => g
  | k + 1, g => Smp.after k g.get.2

/-- The `k`-th sample of the sampler's sequence. -/
def Smp.output (g : Smp) (k : Nat) : Bool := (Smp.after k g).get.1

/-- The sum of squared differences over `count` pairs (R150, R151). -/
def pairSum (n : Nat) (b : Buf) (g : Smp) (count : Nat) : Nat :=
  ((List.range count).map fun k => squaredDiff (b.sampleAt n k) (g.output k)).sum

/-- The score of a dictionary entry whose sampler reset gives `g`: it is compared over its own count (R153). -/
def entryScore (s : State) (g : Smp) : Fp :=
  scoreOf (pairSum s.cfg.capacity s.buf g g.rem.toNat) g.rem.toNat

/-- The samples a command sequence writes, in order. -/
def writtenSamples : List Instr → List Sample
  | [] => []
  | i :: is => match i with
    | .bwr v => v :: writtenSamples is
    | _ => writtenSamples is

/-- A command that writes neither `wr`, `Store` nor the checkpoint, and moves `rd` by reading only (R109, R204). -/
def isReplaySafe : Instr → Bool
  | .brd | .bavl | .stat | .ldi _ | .lds _ | .ldc _ | .srst | .srem | .sget | .rdsc | .rdbest | .rdberr => true
  | .bclr | .bwr _ | .bsave | .bret | .cmp | .clsf => false

/-- A command that may stand between a save and a return when writes are counted: no clear, no other checkpoint command
(R204). -/
def isAccess : Instr → Bool
  | .bwr _ => true
  | i => isReplaySafe i

/-- A command that raises no fault of its own (R181). -/
def neverFaults : Instr → Bool
  | .bret | .srst | .srem | .sget | .cmp | .clsf => false
  | .stat | .bclr | .bwr _ | .bavl | .brd | .bsave | .ldi _ | .lds _ | .ldc _ | .rdsc | .rdbest | .rdberr => true

/-- The sum of squared differences between what BRD and what SGET answered, pair by pair (R150, R151). -/
def responseSum (bs gs : List Response) : Nat :=
  (List.zipWith (fun b g => squaredDiff (b.setWidth 8) (g.getLsbD 0)) bs gs).sum

/-- A magnitude that is a finite binary64 value: a multiple of a power of two by less than `2^53` (R13). -/
def Representable (m : Nat) : Prop := ∃ q k, q < 2 ^ 53 ∧ m = q * 2 ^ k

end Sys2Proof.Machine
end

