-- ==== Sys2Proof/Certificates/Slice0/Obligations.lean ====
section
/-! DEFINITION. The statements for the provers. Each docstring names the rule of spec/ the statement formalises.
A statement with the conclusion `exec i s = .next …` or `∃ …, exec i s = .next …` says where the command completes and,
since every field not named keeps its value, its frame. -/

section

open Sys2Proof Sys2Proof.Machine

/-! ### Encoding -/

/-- Words written out from the encodings of R71, R73 and R78, one or more per unit, with reserved words (R75). -/
def Obligations.SpecWordsDecodeToTheirCommands : Prop :=
  decode 0x010000000000000000#72 = .command .stat ∧
  decode 0x110000000000000003#72 = .command (.bwr 3#8) ∧
  decode 0x130000000000000000#72 = .command .brd ∧
  decode 0x204020000000000000#72 = .command (.ldi 0x4020000000000000#64) ∧
  decode 0x220000000000000ae8#72 = .command (.ldc 0xae8#32) ∧
  decode 0x230000000000000000#72 = .command .srst ∧
  decode 0x310000000000000000#72 = .command .clsf ∧
  decode 0x000000000000000000#72 = .illegal .reservedOpcode ∧
  decode 0x110000000000000100#72 = .illegal .reservedOperandBit

/-- Every command's word decodes to that command, with every operand at every value (R70 to R73). -/
def Obligations.DecodeOfEncodeIsTheCommand : Prop :=
  ∀ i : Instr, decode (encode i) = .command i

/-- A word that decodes to a command is that command's word, so no bit of a legal word is dropped (R70 to R74). -/
def Obligations.EncodeOfDecodeIsTheWord : Prop :=
  ∀ (w : CommandWord) (i : Instr), decode w = .command i → encode i = w

/-- The step-by-step decoder and the match and mask pairs of R74 accept the same words; every other word is
reserved (R75). -/
def Obligations.DecoderAcceptsExactlyTheMaskedRows : Prop :=
  ∀ w : CommandWord,
    (legalWord w = true → ∃ i, decode w = .command i) ∧
    (legalWord w = false → ∃ r, decode w = .illegal r)

/-- At most one row of the opcode map fits a word, so a word is at most one command (R74). -/
def Obligations.NoWordFitsTwoRows : Prop :=
  ∀ (w : CommandWord) (r r' : Opcode × Format),
    r ∈ opcodeRows → r' ∈ opcodeRows → fitsRow w r = true → fitsRow w r' = true → r = r'

/-! ### The transaction -/

/-- A step takes the host's next word and runs the command it decodes to (R172). -/
def Obligations.StepRunsTheDecodedCommand : Prop :=
  ∀ (s : State) (w : CommandWord) (rest : List HostAction) (i : Instr),
    s.host = .command w :: rest → decode w = .command i → step s = exec i { s with host := rest }

/-- R75: a reserved word raises `IllegalCommand`, recording its top byte, and changes nothing else. -/
def Obligations.ReservedWordRaisesIllegalCommand : Prop :=
  ∀ (s : State) (w : CommandWord) (rest : List HostAction),
    s.host = .command w :: rest → legalWord w = false → s.flt.fault = false →
    step s = .next { s with
      host := rest
      flt := { fault := true, cause := 1#4, fop := w.extractLsb' 64 8, fidx := 0#16 }
      rsp := some 0#64 }

/-- R173: while `FAULT = 1` a word with STAT's opcode executes as STAT whatever its operand; any other word,
legal or not, changes no state and answers 0. -/
def Obligations.WhileFaultedOnlyStatExecutes : Prop :=
  ∀ (s : State) (w : CommandWord) (rest : List HostAction),
    s.host = .command w :: rest → s.flt.fault = true →
    (w.extractLsb' 64 8 = 0x01#8 → step s = execStat { s with host := rest }) ∧
    (w.extractLsb' 64 8 ≠ 0x01#8 → step s = .next { s with host := rest, rsp := some 0#64 })

/-- R195: with nothing presented the block is idle and nothing changes. -/
def Obligations.IdlenessChangesNothing : Prop :=
  ∀ s : State, s.host = [] → step s = .next s

/-- R185, R186: once set, `FAULT` and the record stay as they are until hardware reset, and so does all state but
the response. -/
def Obligations.FaultRecordStaysUntilReset : Prop :=
  ∀ (s t : State) (w : CommandWord) (rest : List HostAction),
    s.flt.fault = true → s.host = .command w :: rest → step s = .next t →
    t.flt = s.flt ∧ t = { s with host := rest, rsp := t.rsp }

/-! ### Reset -/

/-- R200, R37: the values the spec gives for reset, from every state. The last two clauses are the model's choice: no
response word is held after reset (log 7), and the host's further actions stay (log 6). -/
def Obligations.ResetGivesTheSpecifiedValues : Prop :=
  ∀ (s : State) (rest : List HostAction), s.host = .reset :: rest →
    ∃ t, step s = .next t ∧
      t.buf.rd = 0 ∧ t.buf.wr = 0 ∧ t.buf.full = false ∧ t.buf.ckv = false ∧ t.smp.sInit = false ∧
      t.opr.itv = 0#64 ∧ t.opr.spd = 0#64 ∧ t.opr.cwr = 0#32 ∧
      t.cls.score = 0#64 ∧ t.cls.bestv = false ∧ t.cls.bestidx = 0#16 ∧ t.cls.bestsym = 0#8 ∧
      t.cls.besterr = 0#64 ∧ t.cls.undr = false ∧
      t.flt.fault = false ∧ t.flt.cause = 0#4 ∧ t.flt.fop = 0#8 ∧ t.flt.fidx = 0#16 ∧
      t.cfg = s.cfg ∧ t.host = rest ∧ t.rsp = none

/-- R37: the state after reset of every configuration, its STATUS word `0x0002` included. -/
def Obligations.ResetStateReadsAsSpecified : Prop :=
  ∀ cfg : Config,
    exec .stat (State.resetOf cfg) = .next { State.resetOf cfg with rsp := some 0x0000000000000002#64 } ∧
    exec .bavl (State.resetOf cfg) = .next { State.resetOf cfg with rsp := some 0#64 } ∧
    exec .rdsc (State.resetOf cfg) = .next { State.resetOf cfg with rsp := some 0#64 } ∧
    exec .rdbest (State.resetOf cfg) = .next { State.resetOf cfg with rsp := some 0#64 } ∧
    exec .rdberr (State.resetOf cfg) = .next { State.resetOf cfg with rsp := some 0#64 }

/-! ### System -/

/-- R170 with the layout of R33: STAT answers STATUS, `FOP` and `FIDX` in their places and changes nothing, whether
or not the block is faulted. Its word with a nonzero operand is illegal, and the record reads 0 while `FAULT = 0`. -/
def Obligations.StatReturnsStatusAndFaultRecord : Prop :=
  decode 0x010000000000000000#72 = .command .stat ∧
  (∀ a : BitVec 64, a ≠ 0#64 → decode (0x01#8 ++ a) = .illegal .reservedOperandBit) ∧
  ∀ s : State, ∃ r : Response,
    exec .stat s = .next { s with rsp := some r } ∧
    r.getLsbD 0 = s.buf.full ∧
    r.getLsbD 1 = (decide (s.buf.rd = s.buf.wr) && !s.buf.full) ∧
    r.getLsbD 2 = s.buf.ckv ∧
    r.getLsbD 3 = s.smp.sInit ∧
    r.getLsbD 4 = (s.smp.sInit && decide (s.smp.rem = 0#32)) ∧
    r.getLsbD 5 = s.cls.undr ∧
    r.getLsbD 6 = s.cls.bestv ∧
    r.getLsbD 7 = s.flt.fault ∧
    r.extractLsb' 8 4 = s.flt.cause ∧
    r.extractLsb' 12 4 = 0#4 ∧
    r.extractLsb' 16 8 = s.flt.fop ∧
    r.extractLsb' 24 16 = s.flt.fidx ∧
    r.extractLsb' 40 24 = 0#24 ∧
    (s.Inv → s.flt.fault = false → r.extractLsb' 16 8 = 0#8 ∧ r.extractLsb' 24 16 = 0#16)

/-! ### Circular sample buffer -/

/-- R101: BCLR empties the buffer and leaves the checkpoint and the cells. -/
def Obligations.BclrEmptiesTheBuffer : Prop :=
  decode 0x100000000000000000#72 = .command .bclr ∧
  ∀ s : State, s.flt.fault = false →
    exec .bclr s = .next { s with buf := { s.buf with rd := 0, wr := 0, full := false }, rsp := some 0#64 }

/-- R102: the four steps of BWR, overwriting the oldest sample when full, never failing. The cell written is `wr`;
every other cell reads as before. -/
def Obligations.BwrStoresAtTheWriteCursor : Prop :=
  ∀ (s : State) (v : Sample), s.flt.fault = false → s.buf.wr < s.cfg.capacity →
    decode (0x11#8 ++ 0#56 ++ v) = .command (.bwr v) ∧
    ∃ m : List Host.Cell,
      exec (.bwr v) s = .next { s with
        buf := { s.buf with
          store := m
          rd := if s.buf.full then (s.buf.rd + 1) % s.cfg.capacity else s.buf.rd
          wr := (s.buf.wr + 1) % s.cfg.capacity
          full := decide ((s.buf.wr + 1) % s.cfg.capacity =
            if s.buf.full then (s.buf.rd + 1) % s.cfg.capacity else s.buf.rd) }
        rsp := some 0#64 } ∧
      ∀ a, Memory.read a m = if a = s.buf.wr then some v else Memory.read a s.buf.store

/-- R103: BAVL always completes and changes nothing; its answer is the count by the three branches. Of a count that
needs more than 64 bits the spec states no response, and the model leaves it free (log 16). -/
def Obligations.BavlReturnsTheUnreadCount : Prop :=
  decode 0x120000000000000000#72 = .command .bavl ∧
  ∀ s : State, s.flt.fault = false → ∃ r : Response,
    exec .bavl s = .next { s with rsp := some r } ∧
    (s.buf.full = true → s.cfg.capacity < 2 ^ 64 → r.toNat = s.cfg.capacity) ∧
    (s.buf.full = false → s.buf.rd ≤ s.buf.wr → s.buf.wr - s.buf.rd < 2 ^ 64 → r.toNat = s.buf.wr - s.buf.rd) ∧
    (s.buf.full = false → s.buf.wr < s.buf.rd → s.cfg.capacity - s.buf.rd + s.buf.wr < 2 ^ 64 →
      r.toNat = s.cfg.capacity - s.buf.rd + s.buf.wr)

/-- R103 (corner cases), R110: with the cursors in range the count is at most `N`, is `N` only when full, and is 0
exactly when the buffer is empty. R11: `cursorWidth n` is `max(1, ceil(log2(n)))`, `countWidth n` is `ceil(log2(n+1))`,
and cursors and count fit them. -/
def Obligations.UnreadCountIsBounded : Prop :=
  (∀ n k : Nat, ceilLog2 n ≤ k ↔ n ≤ 2 ^ k) ∧
  ∀ (n : Nat) (b : Buf), b.rd < n → b.wr < n →
    b.avail n ≤ n ∧ (b.avail n = n → b.full = true) ∧ (b.avail n = 0 ↔ b.empty = true) ∧
    cursorWidth n = max 1 (ceilLog2 n) ∧ countWidth n = ceilLog2 (n + 1) ∧
    b.rd < 2 ^ cursorWidth n ∧ b.wr < 2 ^ cursorWidth n ∧ b.avail n < 2 ^ countWidth n

/-- R104: the sentinel on an empty buffer with nothing changed; otherwise the sample at the read cursor, which
advances, and `full` is cleared. The cells are not changed. Of a cell never written the value is unspecified, and only
the model's own draw counter (log 5) moves. -/
def Obligations.BrdReturnsOldestSampleOrSentinel : Prop :=
  decode 0x130000000000000000#72 = .command .brd ∧
  ∀ s : State, s.flt.fault = false →
    (s.buf.rd = s.buf.wr ∧ s.buf.full = false → exec .brd s = .next { s with rsp := some 0#64 }) ∧
    (¬(s.buf.rd = s.buf.wr ∧ s.buf.full = false) → s.buf.rd < s.cfg.capacity →
      ∃ (v : Sample) (d : Nat),
        exec .brd s = .next { s with
          buf := { s.buf with rd := (s.buf.rd + 1) % s.cfg.capacity, full := false, draws := d }
          rsp := some (v.zeroExtend 64) } ∧
        ∀ u, Memory.read s.buf.rd s.buf.store = some u → v = u ∧ d = s.buf.draws)

/-- R105: BSAVE captures the read cursor and the full flag, replacing any earlier checkpoint. -/
def Obligations.BsaveCapturesTheReadPoint : Prop :=
  decode 0x140000000000000000#72 = .command .bsave ∧
  ∀ s : State, s.flt.fault = false →
    exec .bsave s = .next { s with
      buf := { s.buf with ckRd := s.buf.rd, ckFull := s.buf.full, ckv := true }, rsp := some 0#64 }

/-- R106: BRET restores the saved pair blindly and keeps the checkpoint; without one it raises `NoCheckpoint`. -/
def Obligations.BretRestoresOrRaisesNoCheckpoint : Prop :=
  decode 0x150000000000000000#72 = .command .bret ∧
  ∀ s : State, s.flt.fault = false →
    (s.buf.ckv = true →
      exec .bret s = .next { s with
        buf := { s.buf with rd := s.buf.ckRd, full := s.buf.ckFull }, rsp := some 0#64 }) ∧
    (s.buf.ckv = false →
      exec .bret s = .next { s with
        flt := { fault := true, cause := 2#4, fop := 0x15#8, fidx := 0#16 }, rsp := some 0#64 })

/-- The model's own stop (log 8, derived from R51): a store access through a cursor that is no cell, by each of the four
commands that access the store. From a state with `State.Inv` no command stops. -/
def Obligations.CursorOutsideTheStoreStops : Prop :=
  (∀ (s : State) (i : Instr) (f : Fault), s.Inv → exec i s ≠ .fault f) ∧
  ∀ s : State, s.flt.fault = false →
    (∀ v, s.cfg.capacity ≤ s.buf.wr → exec (.bwr v) s = .fault (.cellOutsideStore s.buf.wr)) ∧
    (s.cfg.capacity ≤ s.buf.rd → s.buf.empty = false → exec .brd s = .fault (.cellOutsideStore s.buf.rd)) ∧
    (s.cfg.capacity ≤ s.buf.rd → s.buf.empty = false → s.smp.sInit = true → s.smp.rem ≠ 0#32 →
      exec .cmp s = .fault (.cellOutsideStore s.buf.rd)) ∧
    (∀ e es g, s.cfg.capacity ≤ s.buf.rd → s.buf.empty = false → s.cfg.dict = e :: es →
      smpReset s.opr.itv s.opr.spd e.code = .ok g → g.rem ≠ 0#32 →
      exec .clsf s = .fault (.cellOutsideStore s.buf.rd))

/-- The buffer is a bounded queue that discards its oldest sample when full (R102, R104, R107): a write appends to
the unread region, dropping the oldest cell of a full one, and a read takes its head and answers it, or answers 0 when
there is none. -/
def Obligations.BufferRefinesABoundedQueue : Prop :=
  ∀ (s : State) (v : Sample), s.flt.fault = false → s.buf.consistent s.cfg.capacity = true →
    (∃ t, exec (.bwr v) s = .next t ∧ t.buf.consistent t.cfg.capacity = true ∧
      t.buf.unread t.cfg.capacity =
        (if (s.buf.unread s.cfg.capacity).length = s.cfg.capacity then (s.buf.unread s.cfg.capacity).tail
          else s.buf.unread s.cfg.capacity) ++ [some v]) ∧
    (∃ t, exec .brd s = .next t ∧ t.buf.consistent t.cfg.capacity = true ∧
      t.buf.unread t.cfg.capacity = (s.buf.unread s.cfg.capacity).tail ∧
      (∀ v, (s.buf.unread s.cfg.capacity).head? = some (some v) → t.rsp = some (v.zeroExtend 64)) ∧
      (s.buf.unread s.cfg.capacity = [] → t.rsp = some 0#64))

/-- R108: after `k` writes into an empty buffer the count is `k`, or `N` from then on; `full` is set exactly from
`k = N` on; and the unread samples are the last `N` written, oldest first. -/
def Obligations.CapacityLaw : Prop :=
  ∀ (s : State) (vs : List Sample), s.flt.fault = false → s.buf.consistent s.cfg.capacity = true →
    s.buf.empty = true →
    ∃ rs t, runCommands (vs.map .bwr) s = some (rs, t) ∧ t.cfg = s.cfg ∧
      t.buf.avail s.cfg.capacity = min vs.length s.cfg.capacity ∧
      t.buf.full = decide (s.cfg.capacity ≤ vs.length) ∧
      t.buf.unread s.cfg.capacity = (vs.drop (vs.length - s.cfg.capacity)).map some

/-- R109 (a): reading back at most `N` written samples gives the same sequence in write order, and empties the
buffer. -/
def Obligations.ReadsReturnTheWritesInOrder : Prop :=
  ∀ (s : State) (vs : List Sample), s.flt.fault = false → s.buf.consistent s.cfg.capacity = true →
    s.buf.empty = true → vs.length ≤ s.cfg.capacity →
    ∃ t, runCommands (vs.map .bwr ++ List.replicate vs.length .brd) s =
        some (List.replicate vs.length 0#64 ++ vs.map (fun v => v.zeroExtend 64), t) ∧
      t.buf.empty = true

/-- R109 (b): a save, then any reads and other commands that touch neither the write side nor the checkpoint, then a
return restore the count and the samples that follow, unless one of the commands faulted, after which the block is
stopped (R173). Commands that raise no fault of their own always come through. -/
def Obligations.ReplayRestoresTheReadPoint : Prop :=
  ∀ (s : State) (cmds : List Instr), s.flt.fault = false → s.buf.rd < s.cfg.capacity →
    cmds.all isReplaySafe = true →
    ∃ rs u, runCommands (.bsave :: cmds) s = some (rs, u) ∧
      (cmds.all neverFaults = true → u.flt.fault = false) ∧
      (u.flt.fault = false →
        ∃ t, runCommands (.bsave :: cmds ++ [.bret]) s = some (rs ++ [0#64], t) ∧
          t.buf.avail t.cfg.capacity = s.buf.avail s.cfg.capacity ∧
          t.buf.unread t.cfg.capacity = s.buf.unread s.cfg.capacity ∧
          t.buf.rd = s.buf.rd ∧ t.buf.full = s.buf.full ∧ t.buf.wr = s.buf.wr)

/-- R204 (a), (b): with `m` writes between save and return, among reads and commands that leave the write side and the
checkpoint alone, none of which faulted. Up to `a0 + m = N - 1` the buffer then holds the saved samples followed by the
new ones; at `a0 + m = N` a buffer that was not full when saved reads as empty. -/
def Obligations.StaleCheckpointCases : Prop :=
  ∀ (s : State) (cmds : List Instr), s.flt.fault = false → s.buf.consistent s.cfg.capacity = true →
    cmds.all isAccess = true →
    ∃ rs u, runCommands (.bsave :: cmds) s = some (rs, u) ∧
      (cmds.all neverFaults = true → u.flt.fault = false) ∧
      (u.flt.fault = false → ∃ t, runCommands (.bsave :: cmds ++ [.bret]) s = some (rs ++ [0#64], t) ∧
        (s.buf.avail s.cfg.capacity + (writtenSamples cmds).length ≤ s.cfg.capacity - 1 →
          t.buf.avail s.cfg.capacity = s.buf.avail s.cfg.capacity + (writtenSamples cmds).length ∧
          t.buf.unread s.cfg.capacity = s.buf.unread s.cfg.capacity ++ (writtenSamples cmds).map some) ∧
        (s.buf.avail s.cfg.capacity + (writtenSamples cmds).length = s.cfg.capacity → s.buf.full = false →
          t.buf.empty = true))

/-! ### Floating point -/

/-- Of the model's binary64 (IEEE 754, log 11; notation of R17): a pattern that is no NaN is the pattern of the value it
denotes. -/
def Obligations.PatternsRoundTripThroughValues : Prop :=
  ∀ (b : F64) (nan : BitVec 52), fmt64 b ≠ .nan → bits64 nan (fmt64 b) = b

/-- Of the model's binary64 (IEEE 754, log 11): what rounding gives is a binary64 value, and its pattern denotes it. -/
def Obligations.RoundedValuesHaveAPattern : Prop :=
  ∀ (neg : Bool) (n d : Nat) (nan : BitVec 52), 0 < d →
    fmt64 (bits64 nan (Fp.round neg n d)) = Fp.round neg n d

/-- Round to nearest, ties to even, as the model takes it from IEEE 754 (log 11, 93_implementation_defined.md G1):
rounding gives a representable magnitude, none is nearer to `n / d`, and a tie goes to the even one. -/
def Obligations.RoundingIsToNearestTiesToEven : Prop :=
  ∀ n d : Nat, 0 < d →
    Representable (roundMag n d) ∧
    (∀ m, Representable m →
      ((roundMag n d : Int) * d - n).natAbs ≤ ((m : Int) * d - n).natAbs) ∧
    (∀ m, Representable m → m ≠ roundMag n d →
      ((roundMag n d : Int) * d - n).natAbs = ((m : Int) * d - n).natAbs →
      ∃ q k, q < 2 ^ 53 ∧ q % 2 = 0 ∧ roundMag n d = q * 2 ^ k ∧ (k = 0 ∨ 2 ^ 52 ≤ q))

/-- `cvt(i)` is exact for `i < 2^53` (R17, a sentence the spec marks as general knowledge; log 11). -/
def Obligations.ConversionIsExactBelowTwoToThe53 : Prop :=
  ∀ i, i < 2 ^ 53 → cvt i = .fin false (i * 2 ^ 1074)

/-- The model's `fsqrt` is correctly rounded (R17, log 11). The integer square root behind it is the floor of the root.
A positive magnitude `mag` has the root `r`, a representable magnitude such that none is nearer to the square root of
`Fp.unit * mag`: the middle between `r` and any other representable `m` does not lie on `r`'s side of that root, and on
a tie `r` is the even one. Zeros keep their sign, `+inf` is its own root, and a negative value or a NaN has a NaN. -/
def Obligations.IntegerSquareRootIsFloor : Prop :=
  (∀ n, isqrt n * isqrt n ≤ n ∧ n < (isqrt n + 1) * (isqrt n + 1)) ∧
  (∀ mag, 0 < mag → mag < Fp.limit → ∃ r, fsqrt (.fin false mag) = .fin false r ∧ Representable r ∧
    (∀ m, Representable m →
      (m < r → (m + r) * (m + r) ≤ 4 * (Fp.unit * mag)) ∧ (r < m → 4 * (Fp.unit * mag) ≤ (m + r) * (m + r))) ∧
    (∀ m, Representable m → m ≠ r → (m + r) * (m + r) = 4 * (Fp.unit * mag) →
      ∃ q k, q < 2 ^ 53 ∧ q % 2 = 0 ∧ r = q * 2 ^ k ∧ (k = 0 ∨ 2 ^ 52 ≤ q))) ∧
  (∀ neg, fsqrt (.fin neg 0) = .fin neg 0) ∧ fsqrt (.inf false) = .inf false ∧
  (∀ mag, 0 < mag → fsqrt (.fin true mag) = .nan) ∧ fsqrt (.inf true) = .nan ∧ fsqrt .nan = .nan

/-! ### Waveform sampler -/

/-- R120, R121, R122: the operand loads write their register, whatever the pattern, and nothing else. -/
def Obligations.OperandLoadsWriteTheirRegister : Prop :=
  ∀ (s : State) (v : F64) (c : CodeWord), s.flt.fault = false →
    decode (0x20#8 ++ v) = .command (.ldi v) ∧
    exec (.ldi v) s = .next { s with opr := { s.opr with itv := v }, rsp := some 0#64 } ∧
    decode (0x21#8 ++ v) = .command (.lds v) ∧
    exec (.lds v) s = .next { s with opr := { s.opr with spd := v }, rsp := some 0#64 } ∧
    decode (0x22#8 ++ 0#32 ++ c) = .command (.ldc c) ∧
    exec (.ldc c) s = .next { s with opr := { s.opr with cwr := c }, rsp := some 0#64 }

/-- R123, closed form of step 1: the significant length and the code word moved up to the top bit. -/
def Obligations.NormaliseFindsTheSignificantLength : Prop :=
  ∀ c : CodeWord,
    (c = 0#32 → normalise 32 c = (0, 0#32)) ∧
    (c ≠ 0#32 → (normalise 32 c).1 = 1 + Nat.log2 c.toNat ∧
      (normalise 32 c).2.toNat = c.toNat * 2 ^ (32 - (normalise 32 c).1) ∧
      (normalise 32 c).2.msb = true)

/-- R123: SRST checks the timing, then the budget, and then commits the whole sampler state; a fault changes nothing
but the fault registers. -/
def Obligations.SrstResetsTheSamplerOrFaults : Prop :=
  decode 0x230000000000000000#72 = .command .srst ∧
  ∀ s : State, s.flt.fault = false →
    let itv := fmt64 s.opr.itv
    let spd := fmt64 s.opr.spd
    let timed : Prop := finite itv = true ∧ fgt0 itv = true ∧ finite spd = true ∧ fgt0 spd = true
    let len := (normalise 32 s.opr.cwr).1
    let spdit := fdiv (fdiv (cvt 1200) spd) itv
    let total := fmul (cvt len) spdit
    (¬timed → exec .srst s = .next { s with
      flt := { fault := true, cause := 3#4, fop := 0x23#8, fidx := 0#16 }, rsp := some 0#64 }) ∧
    (timed → flt total (cvt (2 ^ 32)) = false → exec .srst s = .next { s with
      flt := { fault := true, cause := 4#4, fop := 0x23#8, fidx := 0#16 }, rsp := some 0#64 }) ∧
    (timed → flt total (cvt (2 ^ 32)) = true → ∀ nan, ∃ rem : Count,
      rem.toNat = ftrunc total ∧
      exec .srst s = .next { s with
        smp := {
          wcode := (normalise 32 s.opr.cwr).2
          wlen := len
          spdit := bits64 nan spdit
          dps := bits64 nan (fdiv (cvt 1) spdit)
          fracAcc := 0x0000000000000000#64
          intAcc := 0#32
          rem := rem
          sInit := true }
        rsp := some (rem.zeroExtend 64) })

/-- R123 corner case (a), R119: the empty symbol is accepted and has no samples, for every timing whose
samples-per-dit is finite. -/
def Obligations.EmptySymbolHasNoSamples : Prop :=
  ∀ s : State, s.flt.fault = false → s.opr.cwr = 0#32 →
    finite (fmt64 s.opr.itv) = true → fgt0 (fmt64 s.opr.itv) = true →
    finite (fmt64 s.opr.spd) = true → fgt0 (fmt64 s.opr.spd) = true →
    finite (samplesPerDit s.opr.itv s.opr.spd) = true →
    ∃ t, exec .srst s = .next t ∧ t.smp.sInit = true ∧ t.smp.rem = 0#32 ∧ t.smp.wlen = 0 ∧
      t.rsp = some 0#64 ∧ t.flt = s.flt

/-- R124: SREM answers the countdown, or raises `SamplerUninit`. -/
def Obligations.SremReturnsTheCountdown : Prop :=
  decode 0x240000000000000000#72 = .command .srem ∧
  ∀ s : State, s.flt.fault = false →
    (s.smp.sInit = true → exec .srem s = .next { s with rsp := some (s.smp.rem.zeroExtend 64) }) ∧
    (s.smp.sInit = false → exec .srem s = .next { s with
      flt := { fault := true, cause := 5#4, fop := 0x24#8, fidx := 0#16 }, rsp := some 0#64 })

/-- R125: SGET raises `SamplerUninit`, or answers the sentinel with nothing changed, or emits the top bit of the
working code as it was, accumulates, carries at most once and counts down. -/
def Obligations.SgetEmitsAndAdvances : Prop :=
  decode 0x250000000000000000#72 = .command .sget ∧
  ∀ s : State, s.flt.fault = false →
    (s.smp.sInit = false → exec .sget s = .next { s with
      flt := { fault := true, cause := 5#4, fop := 0x25#8, fidx := 0#16 }, rsp := some 0#64 }) ∧
    (s.smp.sInit = true → s.smp.rem = 0#32 → exec .sget s = .next { s with rsp := some 0#64 }) ∧
    (s.smp.sInit = true → s.smp.rem ≠ 0#32 →
      let frac := fadd (fmt64 s.smp.fracAcc) (fmt64 s.smp.dps)
      ∃ (nan : BitVec 52) (free : Bool),
        exec .sget s = .next { s with
          smp := { s.smp with
            fracAcc := bits64 nan frac
            intAcc := if floorGt free frac s.smp.intAcc.toNat then s.smp.intAcc + 1#32 else s.smp.intAcc
            wcode := if floorGt free frac s.smp.intAcc.toNat then s.smp.wcode <<< 1 else s.smp.wcode
            rem := s.smp.rem - 1#32 }
          rsp := some (if s.smp.wcode.msb then 1#64 else 0#64) })

/-- R127 (a), second half: each call of SGET counts down by one until nothing remains. -/
def Obligations.SgetCountsDownToZero : Prop :=
  ∀ (s : State) (k : Nat), s.flt.fault = false → s.smp.sInit = true →
    ∃ rs t, runCommands (List.replicate k .sget) s = some (rs, t) ∧
      t.smp.rem.toNat = s.smp.rem.toNat - k ∧ t.smp.sInit = true ∧ t.flt = s.flt

/-- R127 (b): the responses of SRST and of any number of SGET commands after it depend only on `ITV`, `SPD` and
`CWR`, whatever else the two states hold. -/
def Obligations.SampleSequenceDependsOnOperandsOnly : Prop :=
  ∀ (s s' : State) (k : Nat), s.flt.fault = false → s'.flt.fault = false → s.opr = s'.opr →
    ∃ rs t t', runCommands (.srst :: List.replicate k .sget) s = some (rs, t) ∧
      runCommands (.srst :: List.replicate k .sget) s' = some (rs, t')

/-! ### Classifier -/

/-- R150, faults: both checks come before any state is written, `SamplerUninit` first (R183). -/
def Obligations.CmpChecksBeforeWriting : Prop :=
  ∀ s : State, s.flt.fault = false →
    (s.smp.sInit = false → exec .cmp s = .next { s with
      flt := { fault := true, cause := 5#4, fop := 0x30#8, fidx := 0#16 }, rsp := some 0#64 }) ∧
    (s.smp.sInit = true → s.smp.rem = 0#32 → exec .cmp s = .next { s with
      flt := { fault := true, cause := 6#4, fop := 0x30#8, fidx := 0#16 }, rsp := some 0#64 })

/-- R150, state after a completed CMP, with R152, R205, R206: the buffer is unmodified, the checkpoint is the read
point at which CMP started, the sampler is exhausted, `UNDR` says whether it underran, `SCORE` is the response. -/
def Obligations.CmpRestoresBufferAndConsumesSampler : Prop :=
  ∀ s : State, s.flt.fault = false → s.smp.sInit = true → s.smp.rem ≠ 0#32 → s.buf.rd < s.cfg.capacity →
    ∃ (d : Nat) (g : Smp) (score : F64),
      exec .cmp s = .next { s with
        buf := { s.buf with ckRd := s.buf.rd, ckFull := s.buf.full, ckv := true, draws := d }
        smp := g
        cls := { s.cls with score := score, undr := decide (s.buf.avail s.cfg.capacity < s.smp.rem.toNat) }
        rsp := some score } ∧
      g = Smp.after s.smp.rem.toNat s.smp ∧ g.rem = 0#32 ∧ g.sInit = true

/-- R150, R151, R152: for every buffer the score is `sqrt(sum) / count` of the squared differences between what `count`
BRD commands and `count` SGET commands would answer. For a consistent buffer whose unread cells have been written these
are the unread samples, then sentinel zeros, and the sampler's sequence. The floating-point functions are the model's
binary64 (log 11). -/
def Obligations.CmpScoresTheUnreadSamples : Prop :=
  (∀ s : State, s.flt.fault = false → s.smp.sInit = true → s.smp.rem ≠ 0#32 → s.buf.rd < s.cfg.capacity →
    ∀ nan, ∃ bs u gs v t, runCommands (List.replicate s.smp.rem.toNat .brd) s = some (bs, u) ∧
      runCommands (List.replicate s.smp.rem.toNat .sget) s = some (gs, v) ∧
      exec .cmp s = .next t ∧
      t.rsp = some (bits64 nan (fdiv (fsqrt (cvt (responseSum bs gs))) (cvt s.smp.rem.toNat)))) ∧
  ∀ s : State, s.flt.fault = false → s.smp.sInit = true → s.smp.rem ≠ 0#32 →
    s.buf.consistent s.cfg.capacity = true → s.buf.unreadWritten s.cfg.capacity = true →
    ∀ nan, ∃ t, exec .cmp s = .next t ∧
      t.rsp = some (bits64 nan (fdiv
        (fsqrt (cvt (pairSum s.cfg.capacity s.buf s.smp s.smp.rem.toNat))) (cvt s.smp.rem.toNat)))

/-- R150 (c), (d), R151: over the sums and counts a compare can reach, the score is finite and not negative, and it is
`+0.0` exactly when the sum is 0; the sum of a compare's pairs is below `2^48`, and it is 0 exactly when every compared
pair is equal. The floating-point functions are the model's binary64 (log 11). -/
def Obligations.ScoreIsFiniteAndZeroOnlyForEqualPairs : Prop :=
  (∀ sum count : Nat, sum < 2 ^ 48 → 1 ≤ count → count < 2 ^ 32 →
    ∃ m, scoreOf sum count = .fin false m ∧ (m = 0 ↔ sum = 0)) ∧
  ∀ (n : Nat) (b : Buf) (g : Smp) (count : Nat), count < 2 ^ 32 →
    pairSum n b g count < 2 ^ 48 ∧
    (pairSum n b g count = 0 ↔ ∀ k, k < count → (b.sampleAt n k).toNat = if g.output k then 1 else 0)

/-- R153 (c): an empty dictionary selects nothing, checks no timing and faults not. -/
def Obligations.ClsfOnAnEmptyDictionary : Prop :=
  ∀ s : State, s.flt.fault = false → s.cfg.dict = [] →
    exec .clsf s = .next { s with
      cls := { s.cls with undr := false, bestv := false, bestidx := 0#16, bestsym := 0#8, besterr := 0#64 }
      rsp := some 0#64 }

/-- R153, R31, R152: the search completes when every entry's sampler reset completes with samples; it leaves the buffer as
it was and selects the lowest index that attains the strictly smallest score, each entry scored over its own count.
`SCORE` is the last entry's score, `UNDR` says whether any entry underran, and the sampler is the last entry's, exhausted.
The floating-point functions are the model's binary64 (log 11). -/
def Obligations.ClsfSelectsTheFirstMinimum : Prop :=
  ∀ (s : State) (g : Nat → Smp), s.flt.fault = false → s.cfg.dict ≠ [] →
    s.buf.consistent s.cfg.capacity = true → s.buf.unreadWritten s.cfg.capacity = true →
    (∀ j e, s.cfg.dict[j]? = some e → smpReset s.opr.itv s.opr.spd e.code = .ok (g j) ∧ (g j).rem ≠ 0#32) →
    ∃ (t : State) (i : Nat) (e : DictEntry), exec .clsf s = .next t ∧
      s.cfg.dict[i]? = some e ∧
      t.cls.bestv = true ∧ t.cls.bestidx = BitVec.ofNat 16 i ∧ t.cls.bestsym = e.sym ∧
      (∀ nan, t.cls.besterr = bits64 nan (entryScore s (g i))) ∧
      t.rsp = some (0#39 ++ 1#1 ++ e.sym ++ BitVec.ofNat 16 i) ∧
      (∀ j e', s.cfg.dict[j]? = some e' → flt (entryScore s (g j)) (entryScore s (g i)) = false) ∧
      (∀ j, j < i → flt (entryScore s (g i)) (entryScore s (g j)) = true) ∧
      t.buf = { s.buf with ckRd := s.buf.rd, ckFull := s.buf.full, ckv := true } ∧
      (∀ nan, t.cls.score = bits64 nan (entryScore s (g (s.cfg.dict.length - 1)))) ∧
      (t.cls.undr = true ↔ ∃ j, j < s.cfg.dict.length ∧ s.buf.avail s.cfg.capacity < (g j).rem.toNat) ∧
      t.smp = Smp.after (g (s.cfg.dict.length - 1)).rem.toNat (g (s.cfg.dict.length - 1)) ∧
      t.smp.rem = 0#32 ∧ t.smp.sInit = true ∧ t.opr = s.opr ∧ t.flt = s.flt ∧ t.cfg = s.cfg ∧ t.host = s.host

/-- R153, faults of the first entry: bad timing is found at index 0, an overflowing or empty budget at that entry,
and only `UNDR` and, for `ZeroCount`, the sampler have changed. -/
def Obligations.ClsfFaultsAtTheFirstEntry : Prop :=
  ∀ (s : State) (e : DictEntry) (es : List DictEntry), s.flt.fault = false → s.cfg.dict = e :: es →
    (smpReset s.opr.itv s.opr.spd e.code = .error .badTiming → exec .clsf s = .next { s with
      cls := { s.cls with undr := false }
      flt := { fault := true, cause := 3#4, fop := 0x31#8, fidx := 0#16 }, rsp := some 0#64 }) ∧
    (smpReset s.opr.itv s.opr.spd e.code = .error .countOverflow → exec .clsf s = .next { s with
      cls := { s.cls with undr := false }
      flt := { fault := true, cause := 4#4, fop := 0x31#8, fidx := 0#16 }, rsp := some 0#64 }) ∧
    (∀ g, smpReset s.opr.itv s.opr.spd e.code = .ok g → g.rem = 0#32 → exec .clsf s = .next { s with
      smp := g
      cls := { s.cls with undr := false }
      flt := { fault := true, cause := 6#4, fop := 0x31#8, fidx := 0#16 }, rsp := some 0#64 })

/-- R153, R182, R184: a fault inside the search leaves the buffer position and its cells, the operand registers and the
results of the previous completed search, and records the opcode and the index of the entry, which is the first whose
sampler reset raises the recorded cause or gives no samples. Conversely the search faults at the first such entry. -/
def Obligations.ClsfFaultKeepsBufferAndResults : Prop :=
  (∀ (s : State) (i : Nat) (e : DictEntry), s.flt.fault = false → s.buf.rd < s.cfg.capacity →
    s.cfg.dict[i]? = some e → (∀ g, smpReset s.opr.itv s.opr.spd e.code = .ok g → g.rem = 0#32) →
    (∀ j e', j < i → s.cfg.dict[j]? = some e' →
      ∃ g, smpReset s.opr.itv s.opr.spd e'.code = .ok g ∧ g.rem ≠ 0#32) →
    ∃ t, exec .clsf s = .next t ∧ t.flt.fault = true ∧ t.flt.fidx.toNat = i) ∧
  ∀ s t : State, s.flt.fault = false → exec .clsf s = .next t → t.flt.fault = true →
    t.buf.store = s.buf.store ∧ t.buf.rd = s.buf.rd ∧ t.buf.wr = s.buf.wr ∧ t.buf.full = s.buf.full ∧
    t.opr = s.opr ∧ t.cls.bestv = s.cls.bestv ∧ t.cls.bestidx = s.cls.bestidx ∧
    t.cls.bestsym = s.cls.bestsym ∧ t.cls.besterr = s.cls.besterr ∧
    t.flt.fop = 0x31#8 ∧ t.flt.fidx.toNat < s.cfg.dict.length ∧
    (t.flt.cause = 3#4 ∨ t.flt.cause = 4#4 ∨ t.flt.cause = 6#4) ∧
    (t.flt.cause = 3#4 → t.flt.fidx = 0#16) ∧ t.rsp = some 0#64 ∧
    (∀ j e, j < t.flt.fidx.toNat → s.cfg.dict[j]? = some e →
      ∃ g, smpReset s.opr.itv s.opr.spd e.code = .ok g ∧ g.rem ≠ 0#32) ∧
    ∃ e, s.cfg.dict[t.flt.fidx.toNat]? = some e ∧
      ((∃ c, smpReset s.opr.itv s.opr.spd e.code = .error c ∧ t.flt.cause = c.code) ∨
       (smpReset s.opr.itv s.opr.spd e.code = .ok t.smp ∧ t.smp.rem = 0#32 ∧ t.flt.cause = 6#4))

/-- R154: RDSC answers `SCORE`. -/
def Obligations.RdscReturnsTheScore : Prop :=
  decode 0x320000000000000000#72 = .command .rdsc ∧
  ∀ s : State, s.flt.fault = false → exec .rdsc s = .next { s with rsp := some s.cls.score }

/-- R155: RDBEST answers the best entry, index in bits 15:0, symbol in 23:16, valid bit in 24, zeros above. -/
def Obligations.RdbestReturnsTheBestEntry : Prop :=
  decode 0x330000000000000000#72 = .command .rdbest ∧
  ∀ s : State, s.flt.fault = false → ∃ r : Response,
    exec .rdbest s = .next { s with rsp := some r } ∧
    r.extractLsb' 0 16 = s.cls.bestidx ∧ r.extractLsb' 16 8 = s.cls.bestsym ∧
    r.getLsbD 24 = s.cls.bestv ∧ r.extractLsb' 25 39 = 0#39

/-- R156: RDBERR answers `BESTERR`. -/
def Obligations.RdberrReturnsTheBestError : Prop :=
  decode 0x340000000000000000#72 = .command .rdberr ∧
  ∀ s : State, s.flt.fault = false → exec .rdberr s = .next { s with rsp := some s.cls.besterr }

/-! ### The whole machine -/

/-- The machine's invariant holds after reset, for every configuration and for `State.reset`. -/
def Obligations.ResetMeetsTheInvariant : Prop :=
  (∀ cfg : Config, (State.resetOf cfg).Inv) ∧ State.reset.Inv

/-- Every step keeps the invariant, from every state that meets it (R24, R51, R126, R128, R150, R181). -/
def Obligations.StepKeepsTheInvariant : Prop :=
  ∀ s t : State, s.Inv → step s = .next t → t.Inv

/-- Every accepted command is answered: from a state with the invariant no step stops, and after a command word there
is a response (R157, R210). -/
def Obligations.EveryCommandIsAnswered : Prop :=
  ∀ s : State, s.Inv →
    ∃ t, step s = .next t ∧ ∀ w rest, s.host = .command w :: rest → t.rsp.isSome = true ∧ t.host = rest

/-- The configuration never changes (R10, R52, R200). -/
def Obligations.ConfigurationNeverChanges : Prop :=
  ∀ s t : State, step s = .next t → t.cfg = s.cfg

/-- R23, R24: only BWR writes a cell, only BWR and BCLR move the write cursor, and only BWR, BRD, BCLR, BRET move the
read cursor or the full flag for good. -/
def Obligations.OnlyBufferCommandsMoveTheBuffer : Prop :=
  ∀ (i : Instr) (s t : State), exec i s = .next t →
    ((∀ v, i ≠ .bwr v) → t.buf.store = s.buf.store) ∧
    ((∀ v, i ≠ .bwr v) → i ≠ .bclr → t.buf.wr = s.buf.wr) ∧
    ((∀ v, i ≠ .bwr v) → i ≠ .bclr → i ≠ .brd → i ≠ .bret → t.buf.rd = s.buf.rd ∧ t.buf.full = s.buf.full)

/-- R26, R205: only BSAVE, CMP and CLSF write the checkpoint, and no command clears its valid bit. -/
def Obligations.CheckpointIsWrittenOnlyBySaves : Prop :=
  ∀ (i : Instr) (s t : State), exec i s = .next t →
    (s.buf.ckv = true → t.buf.ckv = true) ∧
    (i ≠ .bsave → i ≠ .cmp → i ≠ .clsf →
      t.buf.ckRd = s.buf.ckRd ∧ t.buf.ckFull = s.buf.ckFull ∧ t.buf.ckv = s.buf.ckv)

/-- R28, R29, R30: only SRST, SGET, CMP, CLSF write the sampler, each operand register is written by its own load only,
and no command makes the sampler uninitialised. -/
def Obligations.SamplerAndOperandWriters : Prop :=
  ∀ (i : Instr) (s t : State), exec i s = .next t →
    (i ≠ .srst → i ≠ .sget → i ≠ .cmp → i ≠ .clsf → t.smp = s.smp) ∧
    (s.smp.sInit = true → t.smp.sInit = true) ∧
    ((∀ v, i ≠ .ldi v) → t.opr.itv = s.opr.itv) ∧
    ((∀ v, i ≠ .lds v) → t.opr.spd = s.opr.spd) ∧
    ((∀ c, i ≠ .ldc c) → t.opr.cwr = s.opr.cwr)

/-- R31: only CMP and CLSF write `SCORE` and `UNDR`, and only CLSF writes the best-entry registers. -/
def Obligations.ResultRegisterWriters : Prop :=
  ∀ (i : Instr) (s t : State), exec i s = .next t →
    (i ≠ .cmp → i ≠ .clsf → t.cls = s.cls) ∧
    (i ≠ .clsf → t.cls.bestv = s.cls.bestv ∧ t.cls.bestidx = s.cls.bestidx ∧
      t.cls.bestsym = s.cls.bestsym ∧ t.cls.besterr = s.cls.besterr)

/-- R184: a command other than CLSF that faults changes no state but the four fault registers and the response, which
is 0; and it records its own opcode and index 0 (R182). -/
def Obligations.FaultsArePrecise : Prop :=
  ∀ (i : Instr) (s t : State), s.flt.fault = false → exec i s = .next t → t.flt.fault = true → i ≠ .clsf →
    t = { s with flt := t.flt, rsp := some 0#64 } ∧ t.flt.fop = i.opcode ∧ t.flt.fidx = 0#16

/-- R180, R181: the commands that can fault and with which causes; no other command ever faults. -/
def Obligations.CausesOfEachCommand : Prop :=
  ∀ (i : Instr) (s t : State), s.flt.fault = false → exec i s = .next t → t.flt.fault = true →
    (i = .bret ∧ t.flt.cause = 2#4) ∨
    (i = .srst ∧ (t.flt.cause = 3#4 ∨ t.flt.cause = 4#4)) ∨
    ((i = .srem ∨ i = .sget) ∧ t.flt.cause = 5#4) ∨
    (i = .cmp ∧ (t.flt.cause = 5#4 ∨ t.flt.cause = 6#4)) ∨
    (i = .clsf ∧ (t.flt.cause = 3#4 ∨ t.flt.cause = 4#4 ∨ t.flt.cause = 6#4))

end
end

