-- ==== Sys2Proof/Laws/State.lean ====
section
/-! SUPPORT. One lemma per field per update of the state, each true by definition, so that no later proof unfolds an update. -/

namespace Sys2Proof.Machine

/-! ### The response words of counts -/

/-- A count of at most 64 bits is answered as it is (R77, R103). -/
theorem resCount_of_lt {n : Nat} (h : n < 2 ^ 64) : resCount n = BitVec.ofNat 64 n := if_pos h

@[simp] theorem resRem_toNat (c : Count) : (resRem c).toNat = c.toNat := by
  have := c.isLt
  simp [resRem]
  omega

/-! ### `respond` -/

@[simp] theorem State.respond_cfg (s : State) (v : Response) : (s.respond v).cfg = s.cfg := rfl
@[simp] theorem State.respond_buf (s : State) (v : Response) : (s.respond v).buf = s.buf := rfl
@[simp] theorem State.respond_smp (s : State) (v : Response) : (s.respond v).smp = s.smp := rfl
@[simp] theorem State.respond_opr (s : State) (v : Response) : (s.respond v).opr = s.opr := rfl
@[simp] theorem State.respond_cls (s : State) (v : Response) : (s.respond v).cls = s.cls := rfl
@[simp] theorem State.respond_flt (s : State) (v : Response) : (s.respond v).flt = s.flt := rfl
@[simp] theorem State.respond_rsp (s : State) (v : Response) : (s.respond v).rsp = some v := rfl
@[simp] theorem State.respond_host (s : State) (v : Response) : (s.respond v).host = s.host := rfl

/-! ### `raise` -/

@[simp] theorem State.raise_cfg (s : State) (c : Cause) (op : Opcode) (i : Nat) : (s.raise c op i).cfg = s.cfg := rfl
@[simp] theorem State.raise_buf (s : State) (c : Cause) (op : Opcode) (i : Nat) : (s.raise c op i).buf = s.buf := rfl
@[simp] theorem State.raise_smp (s : State) (c : Cause) (op : Opcode) (i : Nat) : (s.raise c op i).smp = s.smp := rfl
@[simp] theorem State.raise_opr (s : State) (c : Cause) (op : Opcode) (i : Nat) : (s.raise c op i).opr = s.opr := rfl
@[simp] theorem State.raise_cls (s : State) (c : Cause) (op : Opcode) (i : Nat) : (s.raise c op i).cls = s.cls := rfl
@[simp] theorem State.raise_flt (s : State) (c : Cause) (op : Opcode) (i : Nat) : (s.raise c op i).flt = { fault := true, cause := c.code, fop := op, fidx := BitVec.ofNat 16 i } := rfl
@[simp] theorem State.raise_rsp (s : State) (c : Cause) (op : Opcode) (i : Nat) : (s.raise c op i).rsp = some 0#64 := rfl
@[simp] theorem State.raise_host (s : State) (c : Cause) (op : Opcode) (i : Nat) : (s.raise c op i).host = s.host := rfl

/-! ### `loadItv` -/

@[simp] theorem State.loadItv_cfg (s : State) (v : F64) : (s.loadItv v).cfg = s.cfg := rfl
@[simp] theorem State.loadItv_buf (s : State) (v : F64) : (s.loadItv v).buf = s.buf := rfl
@[simp] theorem State.loadItv_smp (s : State) (v : F64) : (s.loadItv v).smp = s.smp := rfl
@[simp] theorem State.loadItv_opr (s : State) (v : F64) : (s.loadItv v).opr = { s.opr with itv := v } := rfl
@[simp] theorem State.loadItv_cls (s : State) (v : F64) : (s.loadItv v).cls = s.cls := rfl
@[simp] theorem State.loadItv_flt (s : State) (v : F64) : (s.loadItv v).flt = s.flt := rfl
@[simp] theorem State.loadItv_rsp (s : State) (v : F64) : (s.loadItv v).rsp = s.rsp := rfl
@[simp] theorem State.loadItv_host (s : State) (v : F64) : (s.loadItv v).host = s.host := rfl

/-! ### `loadSpd` -/

@[simp] theorem State.loadSpd_cfg (s : State) (v : F64) : (s.loadSpd v).cfg = s.cfg := rfl
@[simp] theorem State.loadSpd_buf (s : State) (v : F64) : (s.loadSpd v).buf = s.buf := rfl
@[simp] theorem State.loadSpd_smp (s : State) (v : F64) : (s.loadSpd v).smp = s.smp := rfl
@[simp] theorem State.loadSpd_opr (s : State) (v : F64) : (s.loadSpd v).opr = { s.opr with spd := v } := rfl
@[simp] theorem State.loadSpd_cls (s : State) (v : F64) : (s.loadSpd v).cls = s.cls := rfl
@[simp] theorem State.loadSpd_flt (s : State) (v : F64) : (s.loadSpd v).flt = s.flt := rfl
@[simp] theorem State.loadSpd_rsp (s : State) (v : F64) : (s.loadSpd v).rsp = s.rsp := rfl
@[simp] theorem State.loadSpd_host (s : State) (v : F64) : (s.loadSpd v).host = s.host := rfl

/-! ### `loadCwr` -/

@[simp] theorem State.loadCwr_cfg (s : State) (c : CodeWord) : (s.loadCwr c).cfg = s.cfg := rfl
@[simp] theorem State.loadCwr_buf (s : State) (c : CodeWord) : (s.loadCwr c).buf = s.buf := rfl
@[simp] theorem State.loadCwr_smp (s : State) (c : CodeWord) : (s.loadCwr c).smp = s.smp := rfl
@[simp] theorem State.loadCwr_opr (s : State) (c : CodeWord) : (s.loadCwr c).opr = { s.opr with cwr := c } := rfl
@[simp] theorem State.loadCwr_cls (s : State) (c : CodeWord) : (s.loadCwr c).cls = s.cls := rfl
@[simp] theorem State.loadCwr_flt (s : State) (c : CodeWord) : (s.loadCwr c).flt = s.flt := rfl
@[simp] theorem State.loadCwr_rsp (s : State) (c : CodeWord) : (s.loadCwr c).rsp = s.rsp := rfl
@[simp] theorem State.loadCwr_host (s : State) (c : CodeWord) : (s.loadCwr c).host = s.host := rfl

/-! ### `clearUndr` -/

@[simp] theorem State.clearUndr_cfg (s : State) : (s.clearUndr).cfg = s.cfg := rfl
@[simp] theorem State.clearUndr_buf (s : State) : (s.clearUndr).buf = s.buf := rfl
@[simp] theorem State.clearUndr_smp (s : State) : (s.clearUndr).smp = s.smp := rfl
@[simp] theorem State.clearUndr_opr (s : State) : (s.clearUndr).opr = s.opr := rfl
@[simp] theorem State.clearUndr_cls (s : State) : (s.clearUndr).cls = { s.cls with undr := false } := rfl
@[simp] theorem State.clearUndr_flt (s : State) : (s.clearUndr).flt = s.flt := rfl
@[simp] theorem State.clearUndr_rsp (s : State) : (s.clearUndr).rsp = s.rsp := rfl
@[simp] theorem State.clearUndr_host (s : State) : (s.clearUndr).host = s.host := rfl

/-! ### `hwReset` -/

@[simp] theorem State.hwReset_cfg (s : State) : (s.hwReset).cfg = s.cfg := rfl
@[simp] theorem State.hwReset_buf (s : State) : (s.hwReset).buf = { (State.resetOf s.cfg).buf with draws := s.buf.draws } := rfl
@[simp] theorem State.hwReset_smp (s : State) : (s.hwReset).smp = (State.resetOf s.cfg).smp := rfl
@[simp] theorem State.hwReset_opr (s : State) : (s.hwReset).opr = (State.resetOf s.cfg).opr := rfl
@[simp] theorem State.hwReset_cls (s : State) : (s.hwReset).cls = (State.resetOf s.cfg).cls := rfl
@[simp] theorem State.hwReset_flt (s : State) : (s.hwReset).flt = (State.resetOf s.cfg).flt := rfl
@[simp] theorem State.hwReset_rsp (s : State) : (s.hwReset).rsp = none := rfl
@[simp] theorem State.hwReset_host (s : State) : (s.hwReset).host = s.host := rfl

/-! ### `withFetchWord` -/

@[simp] theorem State.withFetchWord_cfg (s : State) (nbits w : Nat) : (s.withFetchWord nbits w).cfg = s.cfg := rfl
@[simp] theorem State.withFetchWord_buf (s : State) (nbits w : Nat) : (s.withFetchWord nbits w).buf = s.buf := rfl
@[simp] theorem State.withFetchWord_smp (s : State) (nbits w : Nat) : (s.withFetchWord nbits w).smp = s.smp := rfl
@[simp] theorem State.withFetchWord_opr (s : State) (nbits w : Nat) : (s.withFetchWord nbits w).opr = s.opr := rfl
@[simp] theorem State.withFetchWord_cls (s : State) (nbits w : Nat) : (s.withFetchWord nbits w).cls = s.cls := rfl
@[simp] theorem State.withFetchWord_flt (s : State) (nbits w : Nat) : (s.withFetchWord nbits w).flt = s.flt := rfl
@[simp] theorem State.withFetchWord_rsp (s : State) (nbits w : Nat) : (s.withFetchWord nbits w).rsp = s.rsp := rfl
@[simp] theorem State.withFetchWord_host (s : State) (nbits w : Nat) : (s.withFetchWord nbits w).host = .command (tableWord nbits w) :: s.host := rfl

/-! ### `storeBest` -/

@[simp] theorem State.storeBest_cfg (s : State) (best : Best) : (s.storeBest best).cfg = s.cfg := rfl
@[simp] theorem State.storeBest_buf (s : State) (best : Best) : (s.storeBest best).buf = s.buf := rfl
@[simp] theorem State.storeBest_smp (s : State) (best : Best) : (s.storeBest best).smp = s.smp := rfl
@[simp] theorem State.storeBest_opr (s : State) (best : Best) : (s.storeBest best).opr = s.opr := rfl
@[simp] theorem State.storeBest_flt (s : State) (best : Best) : (s.storeBest best).flt = s.flt := rfl
@[simp] theorem State.storeBest_rsp (s : State) (best : Best) : (s.storeBest best).rsp = s.rsp := rfl
@[simp] theorem State.storeBest_host (s : State) (best : Best) : (s.storeBest best).host = s.host := rfl
@[simp] theorem State.storeBest_bestv (s : State) (best : Best) : (s.storeBest best).cls.bestv = best.bv := rfl
@[simp] theorem State.storeBest_bestidx (s : State) (best : Best) : (s.storeBest best).cls.bestidx = BitVec.ofNat 16 best.bi := rfl
@[simp] theorem State.storeBest_bestsym (s : State) (best : Best) : (s.storeBest best).cls.bestsym = best.bs := rfl
@[simp] theorem State.storeBest_score (s : State) (best : Best) : (s.storeBest best).cls.score = s.cls.score := rfl
@[simp] theorem State.storeBest_undr (s : State) (best : Best) : (s.storeBest best).cls.undr = s.cls.undr := rfl

/-! ### `runCompare` -/

@[simp] theorem runCompare_cfg (s : State) : (runCompare s).2.cfg = s.cfg := rfl
@[simp] theorem runCompare_opr (s : State) : (runCompare s).2.opr = s.opr := rfl
@[simp] theorem runCompare_flt (s : State) : (runCompare s).2.flt = s.flt := rfl
@[simp] theorem runCompare_rsp (s : State) : (runCompare s).2.rsp = s.rsp := rfl
@[simp] theorem runCompare_host (s : State) : (runCompare s).2.host = s.host := rfl
@[simp] theorem runCompare_bestv (s : State) : (runCompare s).2.cls.bestv = s.cls.bestv := rfl
@[simp] theorem runCompare_bestidx (s : State) : (runCompare s).2.cls.bestidx = s.cls.bestidx := rfl
@[simp] theorem runCompare_bestsym (s : State) : (runCompare s).2.cls.bestsym = s.cls.bestsym := rfl
@[simp] theorem runCompare_besterr (s : State) : (runCompare s).2.cls.besterr = s.cls.besterr := rfl
@[simp] theorem runCompare_undr (s : State) :
    (runCompare s).2.cls.undr = undrAfter s.cls.undr s.smp.rem.toNat (s.buf.avail s.cfg.capacity) := rfl
@[simp] theorem runCompare_score (s : State) :
    (runCompare s).2.cls.score = bits64 (Config.freeNan s.smp.fracAcc s.smp.dps) (runCompare s).1 := rfl

/-! ### Buffer updates -/

@[simp] theorem Buf.save_store (b : Buf) : (b.save).store = b.store := rfl
@[simp] theorem Buf.save_rd (b : Buf) : (b.save).rd = b.rd := rfl
@[simp] theorem Buf.save_wr (b : Buf) : (b.save).wr = b.wr := rfl
@[simp] theorem Buf.save_full (b : Buf) : (b.save).full = b.full := rfl
@[simp] theorem Buf.save_ckRd (b : Buf) : (b.save).ckRd = b.rd := rfl
@[simp] theorem Buf.save_ckFull (b : Buf) : (b.save).ckFull = b.full := rfl
@[simp] theorem Buf.save_ckv (b : Buf) : (b.save).ckv = true := rfl
@[simp] theorem Buf.save_draws (b : Buf) : (b.save).draws = b.draws := rfl

@[simp] theorem Buf.restore_store (b : Buf) : (b.restore).store = b.store := rfl
@[simp] theorem Buf.restore_rd (b : Buf) : (b.restore).rd = b.ckRd := rfl
@[simp] theorem Buf.restore_wr (b : Buf) : (b.restore).wr = b.wr := rfl
@[simp] theorem Buf.restore_full (b : Buf) : (b.restore).full = b.ckFull := rfl
@[simp] theorem Buf.restore_ckRd (b : Buf) : (b.restore).ckRd = b.ckRd := rfl
@[simp] theorem Buf.restore_ckFull (b : Buf) : (b.restore).ckFull = b.ckFull := rfl
@[simp] theorem Buf.restore_ckv (b : Buf) : (b.restore).ckv = b.ckv := rfl
@[simp] theorem Buf.restore_draws (b : Buf) : (b.restore).draws = b.draws := rfl

@[simp] theorem Buf.push_store (b : Buf) (n : Nat) (v : Sample) : (b.push n v).store = Memory.write b.wr v b.store := rfl
@[simp] theorem Buf.push_rd (b : Buf) (n : Nat) (v : Sample) : (b.push n v).rd = (if b.full then advance n b.rd else b.rd) := rfl
@[simp] theorem Buf.push_wr (b : Buf) (n : Nat) (v : Sample) : (b.push n v).wr = advance n b.wr := rfl
@[simp] theorem Buf.push_full (b : Buf) (n : Nat) (v : Sample) : (b.push n v).full = decide (advance n b.wr = (if b.full then advance n b.rd else b.rd)) := rfl
@[simp] theorem Buf.push_ckRd (b : Buf) (n : Nat) (v : Sample) : (b.push n v).ckRd = b.ckRd := rfl
@[simp] theorem Buf.push_ckFull (b : Buf) (n : Nat) (v : Sample) : (b.push n v).ckFull = b.ckFull := rfl
@[simp] theorem Buf.push_ckv (b : Buf) (n : Nat) (v : Sample) : (b.push n v).ckv = b.ckv := rfl
@[simp] theorem Buf.push_draws (b : Buf) (n : Nat) (v : Sample) : (b.push n v).draws = b.draws := rfl

@[simp] theorem Buf.load_store (b : Buf) : b.load.2.store = b.store := by unfold Buf.load; split <;> rfl
@[simp] theorem Buf.load_rd (b : Buf) : b.load.2.rd = b.rd := by unfold Buf.load; split <;> rfl
@[simp] theorem Buf.load_wr (b : Buf) : b.load.2.wr = b.wr := by unfold Buf.load; split <;> rfl
@[simp] theorem Buf.load_full (b : Buf) : b.load.2.full = b.full := by unfold Buf.load; split <;> rfl
@[simp] theorem Buf.load_ckRd (b : Buf) : b.load.2.ckRd = b.ckRd := by unfold Buf.load; split <;> rfl
@[simp] theorem Buf.load_ckFull (b : Buf) : b.load.2.ckFull = b.ckFull := by unfold Buf.load; split <;> rfl
@[simp] theorem Buf.load_ckv (b : Buf) : b.load.2.ckv = b.ckv := by unfold Buf.load; split <;> rfl

@[simp] theorem Buf.read_store (n : Nat) (b : Buf) : (b.read n).2.store = b.store := by
  unfold Buf.read; split <;> simp
@[simp] theorem Buf.read_wr (n : Nat) (b : Buf) : (b.read n).2.wr = b.wr := by
  unfold Buf.read; split <;> simp
@[simp] theorem Buf.read_ckRd (n : Nat) (b : Buf) : (b.read n).2.ckRd = b.ckRd := by
  unfold Buf.read; split <;> simp
@[simp] theorem Buf.read_ckFull (n : Nat) (b : Buf) : (b.read n).2.ckFull = b.ckFull := by
  unfold Buf.read; split <;> simp
@[simp] theorem Buf.read_ckv (n : Nat) (b : Buf) : (b.read n).2.ckv = b.ckv := by
  unfold Buf.read; split <;> simp

/-! ### Sampler updates -/

@[simp] theorem Smp.get_wlen (g : Smp) : g.get.2.wlen = g.wlen := by unfold Smp.get; split <;> rfl
@[simp] theorem Smp.get_spdit (g : Smp) : g.get.2.spdit = g.spdit := by unfold Smp.get; split <;> rfl
@[simp] theorem Smp.get_dps (g : Smp) : g.get.2.dps = g.dps := by unfold Smp.get; split <;> rfl
@[simp] theorem Smp.get_sInit (g : Smp) : g.get.2.sInit = g.sInit := by unfold Smp.get; split <;> rfl
end Sys2Proof.Machine
end

