-- ==== Sys2Proof/Laws/Store.lean ====
section
/-! SUPPORT. The sample store: reads after writes, the canonical form and the bound on indices are kept by every operation. -/

namespace Sys2Proof.Machine

@[simp] theorem Memory.read_nil (i : Nat) : Memory.read i [] = none := rfl

@[simp] theorem Memory.wf_nil : Memory.wf [] = true := rfl

@[simp] theorem Memory.within_nil (n : Nat) : Memory.within n [] = true := rfl

/-- A read after a write: the written value at the written cell, the old value everywhere else. -/
@[simp] theorem Memory.read_write (a i : Nat) (v : Sample) (m : List Host.Cell) :
    Memory.read a (Memory.write i v m) = if a = i then some v else Memory.read a m := by
  induction m with
  | nil => rfl
  | cons c m ih =>
    obtain ⟨j, u⟩ := c
    simp only [Memory.write]
    split
    · rfl
    · split
      next h =>
        subst h
        simp only [Memory.read]
        split <;> rfl
      next h =>
        simp only [Memory.read, ih]
        split
        next h' => simp [h', Ne.symm h]
        next => rfl

theorem Memory.above_write {k i : Nat} {v : Sample} {m : List Host.Cell} (hk : k < i)
    (hm : Memory.above k m = true) : Memory.above k (Memory.write i v m) = true := by
  induction m with
  | nil => simpa [Memory.write, Memory.above] using hk
  | cons c m ih =>
    obtain ⟨j, u⟩ := c
    simp only [Memory.above, List.all_cons, Bool.and_eq_true, decide_eq_true_eq] at hm ih ⊢
    simp only [Memory.write]
    split
    · simp [hk, hm.1]; simpa using hm.2
    · split
      · simp [hk]; simpa using hm.2
      · simp only [List.all_cons, Bool.and_eq_true, decide_eq_true_eq]
        exact ⟨hm.1, ih hm.2⟩

theorem Memory.above_trans {k j : Nat} {m : List Host.Cell} (hk : k < j) (hm : Memory.above j m = true) :
    Memory.above k m = true := by
  simp only [Memory.above, List.all_eq_true, decide_eq_true_eq] at hm ⊢
  exact fun c hc => Nat.lt_trans hk (hm c hc)

/-- A write keeps the canonical form. -/
theorem Memory.wf_write {i : Nat} {v : Sample} {m : List Host.Cell} (hm : Memory.wf m = true) :
    Memory.wf (Memory.write i v m) = true := by
  induction m with
  | nil => rfl
  | cons c m ih =>
    obtain ⟨j, u⟩ := c
    have ⟨ha, hw⟩ : Memory.above j m = true ∧ Memory.wf m = true := by simpa [Memory.wf] using hm
    simp only [Memory.write]
    split
    next h =>
      have : Memory.above i ((j, u) :: m) = true := by
        simpa [Memory.above, h] using (by simpa [Memory.above] using Memory.above_trans h ha)
      simp [Memory.wf, this, ha, hw]
    next h =>
      split
      next h' => subst h'; simp [Memory.wf, ha, hw]
      next h' => simp [Memory.wf, ih hw, Memory.above_write (by omega : j < i) ha]

/-- A write to a cell that exists keeps every listed cell among those that exist. -/
theorem Memory.within_write {n i : Nat} {v : Sample} {m : List Host.Cell} (hi : i < n)
    (hm : Memory.within n m = true) : Memory.within n (Memory.write i v m) = true := by
  induction m with
  | nil => simpa [Memory.write, Memory.within] using hi
  | cons c m ih =>
    obtain ⟨j, u⟩ := c
    have ⟨hj, hm'⟩ : j < n ∧ Memory.within n m = true := by simpa [Memory.within] using hm
    simp only [Memory.write]
    split
    · simpa [Memory.within, hi, hj] using hm'
    · split
      · simpa [Memory.within, hi] using hm'
      · simpa [Memory.within, hj] using ih hm'

/-- The memory after reset has the canonical form. -/
theorem Memory.wf_reset (cfg : Config) : Memory.wf (State.resetOf cfg).buf.store = true := rfl

theorem advance_lt {n : Nat} (h : 0 < n) (c : Nat) : advance n c < n := Nat.mod_lt _ h

/-! ### The widths of cursor and count (R11) -/

/-- `ceilLog2 n` is the least number of bits whose values number at least `n`. -/
theorem ceilLog2_le_iff (n k : Nat) : ceilLog2 n ≤ k ↔ n ≤ 2 ^ k := by
  unfold ceilLog2
  split
  next h => exact ⟨fun _ => h.trans (Nat.one_le_two_pow), fun _ => Nat.zero_le k⟩
  next h =>
    rw [Nat.add_one_le_iff, Nat.log2_lt (by omega)]
    omega

theorem le_two_pow_ceilLog2 (n : Nat) : n ≤ 2 ^ ceilLog2 n := (ceilLog2_le_iff n _).mp (Nat.le_refl _)

/-- A cell index fits a cursor. -/
theorem lt_two_pow_cursorWidth {c n : Nat} (h : c < n) : c < 2 ^ cursorWidth n :=
  h.trans_le ((le_two_pow_ceilLog2 n).trans (Nat.pow_le_pow_right (by decide) (Nat.le_max_right ..)))

/-- A number of cells fits the count. -/
theorem lt_two_pow_countWidth {c n : Nat} (h : c ≤ n) : c < 2 ^ countWidth n :=
  (Nat.lt_succ_of_le h).trans_le (le_two_pow_ceilLog2 (n + 1))

/-! ### `BufRead()`: everything it can do -/

/-- On an empty buffer: the sentinel, nothing changed (R104). -/
theorem Buf.read_of_empty {b : Buf} (h : b.empty = true) (n : Nat) : b.read n = (0#8, b) := by
  simp [Buf.read, h]

/-- On a written cell: its value (R104). -/
theorem Buf.read_of_written {b : Buf} {v : Sample} (h : b.empty = false)
    (hv : Memory.read b.rd b.store = some v) (n : Nat) :
    b.read n = (v, { b with rd := advance n b.rd, full := false }) := by
  simp [Buf.read, h, Buf.load, hv]

/-- On a cell never written: a free draw (U3). -/
theorem Buf.read_of_unwritten {b : Buf} (h : b.empty = false)
    (hv : Memory.read b.rd b.store = none) (n : Nat) :
    b.read n = (Config.freeSample b.draws,
      { b with rd := advance n b.rd, full := false, draws := b.draws + 1 }) := by
  simp [Buf.read, h, Buf.load, hv]

/-- Everything `BufRead()` can do. -/
theorem Buf.read_cases (n : Nat) (b : Buf) :
    (b.empty = true ∧ b.read n = (0#8, b)) ∨
    (b.empty = false ∧ ∃ v d, b.read n = (v, { b with rd := advance n b.rd, full := false, draws := d }) ∧
      ∀ u, Memory.read b.rd b.store = some u → v = u ∧ d = b.draws) := by
  cases he : b.empty with
  | true => exact .inl ⟨rfl, Buf.read_of_empty he n⟩
  | false =>
    refine .inr ⟨rfl, ?_⟩
    cases hv : Memory.read b.rd b.store with
    | some v => exact ⟨v, b.draws, Buf.read_of_written he hv n, by simp⟩
    | none => exact ⟨_, _, Buf.read_of_unwritten he hv n, by simp⟩

theorem Buf.read_rd_lt {n : Nat} {b : Buf} (hn : 0 < n) (h : b.rd < n) : (b.read n).2.rd < n := by
  obtain ⟨_, he⟩ | ⟨_, v, d, he, -⟩ := Buf.read_cases n b
  · rw [he]; exact h
  · rw [he]; exact advance_lt hn _

end Sys2Proof.Machine
end

