-- ==== Sys2Proof/Laws/Exec.lean ====
section
/-! SUPPORT. What the shared operations of the commands can do, said once: the gate, the compare loop, the search. -/

namespace Sys2Proof.Machine

/-! ### The gate (R173) -/

theorem whenLive_live {s : State} (h : s.flt.fault = false) (body : Result) : whenLive s body = body := by
  simp [whenLive, h]

theorem whenLive_faulted {s : State} (h : s.flt.fault = true) (body : Result) :
    whenLive s body = .next (s.respond 0#64) := by
  simp [whenLive, h]

/-- If a gated command answers a next state, it was ignored or its body answered it. -/
theorem whenLive_next {s t : State} {body : Result} (h : whenLive s body = .next t) :
    (s.flt.fault = true ∧ t = s.respond 0#64) ∨ (s.flt.fault = false ∧ body = .next t) := by
  unfold whenLive at h
  split at h
  next hf => cases h; exact .inl ⟨hf, rfl⟩
  next hf => exact .inr ⟨by simpa using hf, h⟩

/-! ### `SmpReset` (R123) and `SmpGet` (R125) -/

/-- What a completed sampler reset gives. -/
theorem smpReset_ok {itv spd : F64} {code : CodeWord} {g : Smp} (h : smpReset itv spd code = .ok g) :
    validTiming (fmt64 itv) = true ∧ validTiming (fmt64 spd) = true ∧
    flt (sampleBudget itv spd (normalise 32 code).1) (cvt (2 ^ 32)) = true ∧
    g.sInit = true ∧ g.wlen = (normalise 32 code).1 ∧ g.wcode = (normalise 32 code).2 ∧
    g.rem = BitVec.ofNat 32 (ftrunc (sampleBudget itv spd (normalise 32 code).1)) ∧
    g.fracAcc = 0#64 ∧ g.intAcc = 0#32 ∧
    g.spdit = bits64 (Config.freeNan itv spd) (samplesPerDit itv spd) ∧
    g.dps = bits64 (Config.freeNan itv spd) (fdiv (cvt 1) (samplesPerDit itv spd)) := by
  unfold smpReset at h
  split at h
  next hv =>
    have hv := Bool.and_eq_true_iff.mp hv
    dsimp only at h
    split at h
    next hb =>
      obtain rfl := Except.ok.inj h
      refine ⟨hv.1, hv.2, hb, ?_⟩
      refine ⟨?_, ?_, ?_, ?_, ?_, ?_, ?_, ?_⟩ <;> dsimp only
    next => cases h
  next => cases h

/-- Which cause a sampler reset raises (R123, R183). -/
theorem smpReset_error {itv spd : F64} {code : CodeWord} {c : Cause} (h : smpReset itv spd code = .error c) :
    (c = .badTiming ∧ (validTiming (fmt64 itv) && validTiming (fmt64 spd)) = false) ∨
    (c = .countOverflow ∧ (validTiming (fmt64 itv) && validTiming (fmt64 spd)) = true) := by
  unfold smpReset at h
  split at h
  next hv =>
    dsimp only at h
    split at h
    · cases h
    · cases h; exact .inr ⟨rfl, hv⟩
  next hv => cases h; exact .inl ⟨rfl, by simpa using hv⟩

/-- An exhausted sampler stays as it is (R125). -/
theorem Smp.get_of_exhausted {g : Smp} (h : g.rem = 0#32) : g.get = (false, g) := by simp [Smp.get, h]

/-- A call that emits counts down by one (R125, R128). -/
theorem Smp.get_rem {g : Smp} (h : g.rem ≠ 0#32) : g.get.2.rem = g.rem - 1#32 := by simp [Smp.get, h]

theorem Smp.get_rem_toNat (g : Smp) : g.get.2.rem.toNat = g.rem.toNat - 1 := by
  by_cases h : g.rem = 0#32
  · simp [Smp.get_of_exhausted h, h]
  · rw [Smp.get_rem h]
    have : g.rem.toNat ≠ 0 := fun h' => h (by simpa using congrArg (BitVec.ofNat 32) h')
    bv_omega

theorem Smp.after_rem_toNat (k : Nat) (g : Smp) : (Smp.after k g).rem.toNat = g.rem.toNat - k := by
  induction k generalizing g with
  | zero => rfl
  | succ k ih => rw [Smp.after, ih, Smp.get_rem_toNat]; omega

@[simp] theorem Smp.after_sInit (k : Nat) (g : Smp) : (Smp.after k g).sInit = g.sInit := by
  induction k generalizing g with
  | zero => rfl
  | succ k ih => rw [Smp.after, ih, Smp.get_sInit]

/-! ### `Compare` (R150) -/

/-- The compare loop moves the read point and takes draws, and nothing else of the buffer. -/
theorem comparePairs_buf (n count sum : Nat) (b : Buf) (g : Smp) :
    ∃ rd full d, (comparePairs n count sum b g).2.1 = { b with rd := rd, full := full, draws := d } := by
  induction count generalizing sum b g with
  | zero => exact ⟨b.rd, b.full, b.draws, rfl⟩
  | succ k ih =>
    rw [comparePairs]
    obtain ⟨rd, full, d, h⟩ := ih (sum + squaredDiff (b.read n).1 g.get.1) (b.read n).2 g.get.2
    obtain ⟨_, he⟩ | ⟨_, v, d', he, -⟩ := Buf.read_cases n b
    · exact ⟨rd, full, d, by rw [h, he]⟩
    · exact ⟨rd, full, d, by rw [h, he]⟩

/-- The compare loop runs the sampler `count` times. -/
theorem comparePairs_smp (n count sum : Nat) (b : Buf) (g : Smp) :
    (comparePairs n count sum b g).2.2 = Smp.after count g := by
  induction count generalizing sum b g with
  | zero => rfl
  | succ k ih => rw [comparePairs, ih, Smp.after]

/-- Each pair adds at most `255^2` (R151). -/
theorem squaredDiff_le (b : Sample) (g : Bool) : squaredDiff b g ≤ 255 * 255 := by
  have hb : b.toNat < 256 := b.isLt
  unfold squaredDiff
  cases g <;> simp only [] <;> (rw [Int.toNat_le]; push_cast)
  · have : ((b.toNat : Int)) ≤ 255 := by omega
    have h0 : (0 : Int) ≤ b.toNat := by omega
    simpa using mul_le_mul this this h0 (by norm_num)
  · have h1 : ((b.toNat : Int)) - 1 ≤ 255 := by omega
    have h2 : -255 ≤ ((b.toNat : Int)) - 1 := by omega
    nlinarith

theorem comparePairs_sum_le (n count sum : Nat) (b : Buf) (g : Smp) :
    (comparePairs n count sum b g).1 ≤ sum + count * (255 * 255) := by
  induction count generalizing sum b g with
  | zero => simp [comparePairs]
  | succ k ih =>
    rw [comparePairs]
    have h1 := ih (sum + squaredDiff (b.read n).1 g.get.1) (b.read n).2 g.get.2
    have h2 := squaredDiff_le (b.read n).1 g.get.1
    rw [Nat.succ_mul]
    omega

/-- The buffer after a compare (R150, R205): as it was, but for the checkpoint and the model's draws. -/
theorem runCompare_buf (s : State) :
    ∃ d, (runCompare s).2.buf = { s.buf with ckRd := s.buf.rd, ckFull := s.buf.full, ckv := true, draws := d } := by
  obtain ⟨rd, full, d, h⟩ :=
    comparePairs_buf s.cfg.capacity s.smp.rem.toNat 0 s.buf.save s.smp
  refine ⟨d, ?_⟩
  rw [runCompare]
  dsimp only
  rw [h]
  rfl

/-- The sampler after a compare (R150). -/
theorem runCompare_smp (s : State) : (runCompare s).2.smp = Smp.after s.smp.rem.toNat s.smp := by
  rw [runCompare]
  exact comparePairs_smp ..

/-- The sampler is exhausted after a compare (R206). -/
theorem runCompare_rem (s : State) : (runCompare s).2.smp.rem = 0#32 := by
  apply BitVec.eq_of_toNat_eq
  rw [runCompare_smp, Smp.after_rem_toNat]
  simp

theorem runCompare_sInit (s : State) : (runCompare s).2.smp.sInit = s.smp.sInit := by
  rw [runCompare_smp, Smp.after_sInit]

/-- The whole state after a compare (R150). -/
theorem runCompare_eq (s : State) :
    ∃ d, (runCompare s).2 = { s with
      buf := { s.buf with ckRd := s.buf.rd, ckFull := s.buf.full, ckv := true, draws := d }
      smp := Smp.after s.smp.rem.toNat s.smp
      cls := { s.cls with
        score := bits64 (Config.freeNan s.smp.fracAcc s.smp.dps) (runCompare s).1
        undr := undrAfter s.cls.undr s.smp.rem.toNat (s.buf.avail s.cfg.capacity) } } := by
  obtain ⟨d, hb⟩ := runCompare_buf s
  refine ⟨d, ?_⟩
  rw [← hb, ← runCompare_smp]
  rfl

/-! ### The search (R153) -/

/-- What one entry of the search does. -/
theorem search_cons (e : DictEntry) (es : List DictEntry) (i : Nat) (best : Best) (s : State) :
    (∃ c, smpReset s.opr.itv s.opr.spd e.code = .error c ∧ search (e :: es) i best s = .raised c i s) ∨
    (∃ g, smpReset s.opr.itv s.opr.spd e.code = .ok g ∧
      ((g.rem = 0#32 ∧ search (e :: es) i best s = .raised .zeroCount i { s with smp := g }) ∨
       (g.rem ≠ 0#32 ∧ s.buf.readable s.cfg.capacity = false ∧
          search (e :: es) i best s = .outside s.buf.rd) ∨
       (g.rem ≠ 0#32 ∧ s.buf.readable s.cfg.capacity = true ∧
          search (e :: es) i best s =
            search es (i + 1) (best.offer (runCompare { s with smp := g }).1 i e.sym)
              (runCompare { s with smp := g }).2))) := by
  rw [search]
  cases hr : smpReset s.opr.itv s.opr.spd e.code with
  | error c => exact .inl ⟨c, rfl, rfl⟩
  | ok g =>
    refine .inr ⟨g, rfl, ?_⟩
    by_cases hz : g.rem = 0#32
    · exact .inl ⟨hz, by simp [hz]⟩
    · cases hb : s.buf.readable s.cfg.capacity with
      | false => exact .inr (.inl ⟨hz, rfl, by simp [hz]⟩)
      | true => exact .inr (.inr ⟨hz, rfl, by simp [hz]⟩)

/-- What the search never changes: `s` may differ from `t` in the sampler, the checkpoint, `SCORE`, `UNDR`
and the model's draws only. -/
structure SearchFrame (s t : State) : Prop where
  cfg : t.cfg = s.cfg
  opr : t.opr = s.opr
  flt : t.flt = s.flt
  rsp : t.rsp = s.rsp
  host : t.host = s.host
  store : t.buf.store = s.buf.store
  rd : t.buf.rd = s.buf.rd
  wr : t.buf.wr = s.buf.wr
  full : t.buf.full = s.buf.full
  bestv : t.cls.bestv = s.cls.bestv
  bestidx : t.cls.bestidx = s.cls.bestidx
  bestsym : t.cls.bestsym = s.cls.bestsym
  besterr : t.cls.besterr = s.cls.besterr

theorem SearchFrame.refl (s : State) : SearchFrame s s := by constructor <;> rfl

theorem SearchFrame.trans {s t u : State} (h : SearchFrame s t) (k : SearchFrame t u) : SearchFrame s u := by
  constructor
  · rw [k.cfg, h.cfg]
  · rw [k.opr, h.opr]
  · rw [k.flt, h.flt]
  · rw [k.rsp, h.rsp]
  · rw [k.host, h.host]
  · rw [k.store, h.store]
  · rw [k.rd, h.rd]
  · rw [k.wr, h.wr]
  · rw [k.full, h.full]
  · rw [k.bestv, h.bestv]
  · rw [k.bestidx, h.bestidx]
  · rw [k.bestsym, h.bestsym]
  · rw [k.besterr, h.besterr]

/-- A sampler reset and a compare stay within the search frame. -/
theorem runCompare_frame (s : State) (g : Smp) : SearchFrame s (runCompare { s with smp := g }).2 := by
  obtain ⟨d, h⟩ := runCompare_buf { s with smp := g }
  constructor <;> first | rfl | (rw [h])

/-- With a valid timing no entry raises `BadTiming` (R153). -/
theorem search_not_badTiming {s : State}
    (hv : (validTiming (fmt64 s.opr.itv) && validTiming (fmt64 s.opr.spd)) = true)
    (es : List DictEntry) (i : Nat) (best : Best) (j : Nat) (t : State) :
    search es i best s ≠ .raised .badTiming j t := by
  induction es generalizing i best s with
  | nil => intro h; cases h
  | cons e es ih =>
    intro h
    obtain ⟨c, hr, h'⟩ | ⟨g, hr, ⟨_, h'⟩ | ⟨_, _, h'⟩ | ⟨_, _, h'⟩⟩ := search_cons e es i best s
    · rw [h'] at h
      cases h
      rcases smpReset_error hr with ⟨-, hb⟩ | ⟨hb, -⟩
      · simp [hv] at hb
      · cases hb
    · rw [h'] at h; cases h
    · rw [h'] at h; cases h
    · rw [h'] at h
      exact ih (by rw [runCompare_opr]; exact hv) _ _ h

/-- Everything the search can end with, from entry `i` on. -/
theorem search_cases (es : List DictEntry) (i : Nat) (best : Best) (s : State) :
    (∃ best' t, search es i best s = .completed best' t ∧ SearchFrame s t) ∨
    (∃ c j t, search es i best s = .raised c j t ∧ SearchFrame s t ∧ i ≤ j ∧ j < i + es.length ∧
      (c = .badTiming ∨ c = .countOverflow ∨ c = .zeroCount) ∧ (c = .badTiming → j = i)) ∨
    (search es i best s = .outside s.buf.rd ∧ s.buf.readable s.cfg.capacity = false) := by
  induction es generalizing i best s with
  | nil => exact .inl ⟨best, s, rfl, .refl s⟩
  | cons e es ih =>
    obtain ⟨c, hr, h⟩ | ⟨g, hr, ⟨_, h⟩ | ⟨_, hb, h⟩ | ⟨_, hb, h⟩⟩ := search_cons e es i best s
    · refine .inr (.inl ⟨c, i, s, h, .refl s, le_refl i, by simp, ?_, fun _ => rfl⟩)
      rcases smpReset_error hr with ⟨h, -⟩ | ⟨h, -⟩ <;> simp [h]
    · refine .inr (.inl ⟨_, i, _, h, ?_, le_refl i, by simp, by simp, fun _ => rfl⟩)
      constructor <;> rfl
    · exact .inr (.inr ⟨h, hb⟩)
    · have hf := runCompare_frame s g
      rw [h]
      rcases ih (i + 1) (best.offer (runCompare { s with smp := g }).1 i e.sym)
        (runCompare { s with smp := g }).2 with
        ⟨b', t, h', hf'⟩ | ⟨c, j, t, h', hf', hij, hj, hc, hbt⟩ | ⟨-, h''⟩
      · exact .inl ⟨b', t, h', hf.trans hf'⟩
      · refine .inr (.inl ⟨c, j, t, h', hf.trans hf', by omega, by simp only [List.length_cons]; omega, hc, ?_⟩)
        rintro rfl
        obtain ⟨hv1, hv2, -⟩ := smpReset_ok hr
        exact absurd h' (search_not_badTiming (by simp [hv1, hv2]) _ _ _ _ _)
      · exfalso
        have h1 : (runCompare { s with smp := g }).2.buf.readable s.cfg.capacity = s.buf.readable s.cfg.capacity := by
          simp only [Buf.readable, Buf.empty, hf.rd, hf.wr, hf.full]
        rw [runCompare_cfg] at h''
        rw [h1, hb] at h''
        cases h''

/-- If a live CLSF answers a next state, its search completed or an entry raised a fault (R153, R184). -/
theorem execClsf_next {s t : State} (hf : s.flt.fault = false) (h : execClsf s = .next t) :
    (∃ best u, s.searchAll = .completed best u ∧ SearchFrame s.clearUndr u ∧
      t = (u.storeBest best).respond (resBest (u.storeBest best).cls)) ∨
    (∃ c j u, s.searchAll = .raised c j u ∧ SearchFrame s.clearUndr u ∧ j < s.cfg.dict.length ∧
      (c = .badTiming ∨ c = .countOverflow ∨ c = .zeroCount) ∧ (c = .badTiming → j = 0) ∧
      t = u.raise c (Instr.opcode .clsf) j) := by
  rw [execClsf, whenLive_live hf] at h
  rcases search_cases s.cfg.dict 0 Best.start s.clearUndr with
    ⟨best, u, hs, hu⟩ | ⟨c, j, u, hs, hu, -, hj, hc, hb⟩ | ⟨hs, hr⟩
  · refine .inl ⟨best, u, hs, hu, ?_⟩
    have hA : s.searchAll = .completed best u := hs
    simp only [hA, SearchEnd.inStore, Bool.or_true, if_true, clsfState] at h
    cases h
    rfl
  · refine .inr ⟨c, j, u, hs, hu, by omega, hc, hb, ?_⟩
    have hA : s.searchAll = .raised c j u := hs
    simp only [hA, SearchEnd.inStore, Bool.or_true, if_true, clsfState] at h
    cases h
    rfl
  · have hA : s.searchAll = .outside s.clearUndr.buf.rd := hs
    have hr' : s.buf.readable s.cfg.capacity = false := hr
    simp only [hA, hr', SearchEnd.inStore, Bool.or_self, Bool.false_eq_true, if_false] at h
    cases h

end Sys2Proof.Machine
end

