-- ==== Sys2Proof/Laws/Float.lean ====
section
/-! SUPPORT. Binary64: patterns of finite magnitudes, and the values that are neither negative nor a NaN, which the
operations of the sampler and the score stay within. -/

namespace Sys2Proof.Machine

theorem Fp.limit_eq : Fp.limit = 2 ^ 2098 := by unfold Fp.limit; rfl

theorem Fp.limit_pos : 0 < Fp.limit := by unfold Fp.limit; exact Nat.two_pow_pos _

theorem Fp.unit_pos : 0 < Fp.unit := by unfold Fp.unit; exact Nat.two_pow_pos _

/-- The pattern of a finite magnitude lies below the pattern of infinity. -/
theorem magBits_lt {m : Nat} (h : m < Fp.limit) : magBits m < 2047 * 2 ^ 52 := by
  rw [Fp.limit_eq] at h
  unfold magBits
  dsimp only
  rcases Nat.eq_zero_or_pos m with rfl | hm
  · norm_num
  · have hl : Nat.log2 m < 2098 := (Nat.log2_lt (by omega)).2 h
    have hm2 : m < 2 ^ (Nat.log2 m + 1) := Nat.lt_log2_self
    have hq : m / 2 ^ (Nat.log2 m - 52) < 2 ^ 53 := by
      rw [Nat.div_lt_iff_lt_mul (Nat.two_pow_pos _), ← Nat.pow_add]
      exact lt_of_lt_of_le hm2 (Nat.pow_le_pow_right (by decide) (by omega))
    have hk : Nat.log2 m - 52 ≤ 2045 := by omega
    have := Nat.mul_le_mul_left (2 ^ 52) hk
    omega

/-- The pattern of `+mag`, as a number. -/
theorem bits64_fin_toNat (nan : BitVec 52) {m : Nat} (h : m < Fp.limit) :
    (bits64 nan (.fin false m)).toNat = magBits m := by
  have hm := magBits_lt h
  unfold bits64
  rw [BitVec.toNat_append]
  simp only [bit, BitVec.toNat_ofNat]
  norm_num
  omega

theorem bits64_inf_toNat (nan : BitVec 52) : (bits64 nan (.inf false)).toNat = 0x7FF0000000000000 := by
  rw [bits64]
  rfl

/-- A value that is neither negative nor a NaN, with a pattern: `+0 .. +inf`. -/
def Fp.Nonneg (v : Fp) : Prop := v = .inf false ∨ ∃ m, m < Fp.limit ∧ v = .fin false m

theorem Fp.Nonneg.inf : Fp.Nonneg (.inf false) := .inl rfl

theorem Fp.Nonneg.fin {m : Nat} (h : m < Fp.limit) : Fp.Nonneg (.fin false m) := .inr ⟨m, h, rfl⟩

theorem Fp.Nonneg.pattern {v : Fp} (h : v.Nonneg) (nan : BitVec 52) : nonnegPattern (bits64 nan v) = true := by
  unfold nonnegPattern
  rw [decide_eq_true_eq]
  rcases h with rfl | ⟨m, hm, rfl⟩
  · rw [bits64_inf_toNat]
  · rw [bits64_fin_toNat nan hm]
    have := magBits_lt hm
    omega

/-- Rounding a quantity that is not negative. -/
theorem Fp.Nonneg.round (n d : Nat) : (Fp.round false n d).Nonneg := by
  unfold Fp.round
  dsimp only
  split
  next h => exact .fin h
  next => exact .inf

theorem Fp.Nonneg.fadd {a b : Fp} (ha : a.Nonneg) (hb : b.Nonneg) : (Machine.fadd a b).Nonneg := by
  rcases ha with rfl | ⟨m, hm, rfl⟩ <;> rcases hb with rfl | ⟨k, hk, rfl⟩
  · exact .inf
  · exact .inf
  · exact .inf
  · simp only [Machine.fadd, Fp.signed, Bool.false_eq_true, if_false, Bool.and_self]
    by_cases h : (m : Int) + (k : Int) = 0
    · rw [if_pos h]; exact .fin Fp.limit_pos
    · rw [if_neg h, decide_eq_false (by omega)]
      exact .round _ _

theorem Fp.Nonneg.cvt (i : Nat) : (Machine.cvt i).Nonneg := .round _ _

/-- A quotient that is not negative, of a finite or infinite value by a finite one that is not zero. -/
theorem Fp.Nonneg.fdiv {a : Fp} {m : Nat} (ha : a.Nonneg) (hm : m ≠ 0) :
    (Machine.fdiv a (.fin false m)).Nonneg := by
  rcases ha with rfl | ⟨k, hk, rfl⟩
  · exact .inf
  · simp only [Machine.fdiv, hm, if_false]
    exact .round _ _

theorem Fp.Nonneg.fsqrt {a : Fp} (ha : a.Nonneg) : (Machine.fsqrt a).Nonneg := by
  rcases ha with rfl | ⟨m, hm, rfl⟩
  · exact .inf
  · simp only [Machine.fsqrt]
    split
    · exact .fin Fp.limit_pos
    · exact .round _ _

/-- A nonnegative pattern denotes a nonnegative value. -/
theorem fmt64_nonneg {b : F64} (h : nonnegPattern b = true) : (fmt64 b).Nonneg := by
  unfold nonnegPattern at h
  rw [decide_eq_true_eq] at h
  have hneg : b.getLsbD 63 = false := by
    rw [BitVec.getLsbD, Nat.testBit_eq_decide_div_mod_eq]
    have : b.toNat / 2 ^ 63 = 0 := Nat.div_eq_of_lt (by omega)
    simp only [this]
    decide
  have he : (b.extractLsb' 52 11).toNat = b.toNat / 2 ^ 52 % 2 ^ 11 := by
    simp [BitVec.extractLsb'_toNat, Nat.shiftRight_eq_div_pow]
  have hf : (b.extractLsb' 0 52).toNat = b.toNat % 2 ^ 52 := by
    simp [BitVec.extractLsb'_toNat]
  unfold fmt64
  dsimp only
  rw [hneg, he, hf]
  split
  next h1 =>
    split
    · exact .inf
    · exfalso; omega
  next h1 =>
    have hfl : b.toNat % 2 ^ 52 < 2 ^ 52 := Nat.mod_lt _ (by decide)
    split
    · refine .fin (lt_of_lt_of_le hfl ?_)
      rw [Fp.limit_eq]
      exact Nat.pow_le_pow_right (by decide) (by decide)
    next h2 =>
      have hE : b.toNat / 2 ^ 52 % 2 ^ 11 - 1 ≤ 2045 := by omega
      refine .fin ?_
      rw [Fp.limit_eq]
      calc 2 ^ (b.toNat / 2 ^ 52 % 2 ^ 11 - 1) * (2 ^ 52 + b.toNat % 2 ^ 52)
          < 2 ^ (b.toNat / 2 ^ 52 % 2 ^ 11 - 1) * 2 ^ 53 :=
            Nat.mul_lt_mul_of_pos_left (by omega) (Nat.two_pow_pos _)
        _ = 2 ^ (b.toNat / 2 ^ 52 % 2 ^ 11 - 1 + 53) := (Nat.pow_add ..).symm
        _ ≤ 2 ^ 2098 := Nat.pow_le_pow_right (by decide) (by omega)

end Sys2Proof.Machine
end

