-- ==== Sys2Proof/Laws/Words.lean ====
section
/-! SUPPORT. The fields of a command word, and what the reserved-bit masks of R71 leave of an operand. -/

namespace Sys2Proof

/-- Field `op` of an encoded command. -/
@[simp] theorem opOf_encode (i : Instr) : opOf (encode i) = i.opcode := by
  unfold opOf encode
  rw [BitVec.extractLsb'_append_eq_left]

/-- Field `arg` of an encoded command. -/
@[simp] theorem argOf_encode (i : Instr) : argOf (encode i) = i.operand := by
  unfold argOf encode
  rw [BitVec.extractLsb'_append_eq_right]

/-- A word is its two fields. -/
theorem op_append_arg (w : CommandWord) : opOf w ++ argOf w = w := by
  unfold opOf argOf
  apply BitVec.eq_of_getLsbD_eq
  intro i hi
  rw [BitVec.getLsbD_append]
  by_cases h : i < 64
  · simp [h]
  · have h8 : i - 64 < 8 := by omega
    simp [h, h8, Nat.add_sub_cancel' (by omega : 64 ≤ i)]

theorem Format.mustBeZero_s : Format.s.mustBeZero = BitVec.allOnes 64 <<< 8 := by decide

theorem Format.mustBeZero_c : Format.c.mustBeZero = BitVec.allOnes 64 <<< 32 := by decide

/-- The bits of an operand above `k` are zero exactly when the operand is its low `k` bits, zero-extended. -/
theorem highBits_zero_iff (k : Nat) (hk : k ≤ 64) (a : BitVec 64) :
    a &&& (BitVec.allOnes 64 <<< k) = 0#64 ↔ (a.extractLsb' 0 k).zeroExtend 64 = a := by
  constructor
  · intro h
    ext i hi
    have := congrArg (fun b => b.getLsbD i) h
    simp only [BitVec.getLsbD_and, BitVec.getLsbD_shiftLeft, BitVec.getLsbD_allOnes, BitVec.getLsbD_zero] at this
    by_cases hik : i < k
    · simp [BitVec.getElem_setWidth, hik, BitVec.getLsbD_eq_getElem hi]
    · have h0 : a.getLsbD i = false := by
        simpa [hi, hik, (by omega : i - k < 64)] using this
      simp [BitVec.getLsbD_extractLsb', hik, ← BitVec.getLsbD_eq_getElem hi, h0]
  · intro h
    rw [← h]
    ext i hi
    by_cases hik : i < k <;> simp [hik]

@[simp] theorem extract_zeroExtend (k : Nat) (hk : k ≤ 64) (v : BitVec k) :
    (v.zeroExtend 64).extractLsb' 0 k = v := by
  ext i hi
  simp [BitVec.getElem_extractLsb', (by omega : i < 64), BitVec.getLsbD_eq_getElem hi]

end Sys2Proof
end

