-- ==== Sys2Proof/Laws/PerInstr.lean ====
section
/-! SUPPORT. The family RoundTrip: each command's word is a legal word and decodes to that command. -/

namespace Sys2Proof.Laws.RoundTrip

/-- The command's word decodes to it, and fits a row of the opcode map (R70 to R74). -/
def Statement (i : Instr) : Prop := decode (encode i) = .command i ∧ legalWord (encode i) = true

theorem of_plain {i : Instr} (h : commandOf i.opcode i.operand = some i)
    (hz : i.operand &&& i.format.mustBeZero = 0#64) : decode (encode i) = .command i := by
  unfold decode
  rw [opOf_encode, argOf_encode, h]
  simp [hz]

/-- A word of opcode `op` fits the row `(op, f)` when the mask keeps exactly its opcode. -/
theorem legal_of_row {i : Instr} (hr : (i.opcode, i.format) ∈ opcodeRows)
    (hm : encode i &&& i.format.mask = i.opcode.zeroExtend 72 <<< 64) : legalWord (encode i) = true := by
  unfold legalWord
  rw [List.any_eq_true]
  exact ⟨_, hr, by simp [fitsRow, hm]⟩

theorem mask_eq (f : Format) : f.mask = 0xFF#8 ++ f.mustBeZero := by cases f <;> decide

/-- The masked word is the opcode in bits 71:64 when the operand's reserved bits are zero. -/
theorem masked_encode {i : Instr} (hz : i.operand &&& i.format.mustBeZero = 0#64) :
    encode i &&& i.format.mask = i.opcode.zeroExtend 72 <<< 64 := by
  rw [mask_eq, encode, BitVec.and_append, hz]
  have h8 : i.opcode &&& 0xFF#8 = i.opcode := by
    rw [show 0xFF#8 = BitVec.allOnes 8 from by decide, BitVec.and_allOnes]
  rw [h8]
  apply BitVec.eq_of_getLsbD_eq
  intro j hj
  rw [BitVec.getLsbD_append]
  by_cases h : j < 64
  · simp [h]
  · simp [h, hj]

theorem of_row {i : Instr} (h : commandOf i.opcode i.operand = some i)
    (hz : i.operand &&& i.format.mustBeZero = 0#64) (hr : (i.opcode, i.format) ∈ opcodeRows) : Statement i :=
  ⟨of_plain h hz, legal_of_row hr (masked_encode hz)⟩

theorem stat : Statement .stat := of_row rfl (by decide) (by decide)
theorem bclr : Statement .bclr := of_row rfl (by decide) (by decide)
theorem bavl : Statement .bavl := of_row rfl (by decide) (by decide)
theorem brd : Statement .brd := of_row rfl (by decide) (by decide)
theorem bsave : Statement .bsave := of_row rfl (by decide) (by decide)
theorem bret : Statement .bret := of_row rfl (by decide) (by decide)
theorem srst : Statement .srst := of_row rfl (by decide) (by decide)
theorem srem : Statement .srem := of_row rfl (by decide) (by decide)
theorem sget : Statement .sget := of_row rfl (by decide) (by decide)
theorem cmp : Statement .cmp := of_row rfl (by decide) (by decide)
theorem clsf : Statement .clsf := of_row rfl (by decide) (by decide)
theorem rdsc : Statement .rdsc := of_row rfl (by decide) (by decide)
theorem rdbest : Statement .rdbest := of_row rfl (by decide) (by decide)
theorem rdberr : Statement .rdberr := of_row rfl (by decide) (by decide)

theorem bwr (s : Sample) : Statement (.bwr s) := by
  refine of_row ?_ ?_ (by simp [Instr.opcode, Instr.format, opcodeRows])
  · simp [Instr.opcode, Instr.operand, commandOf, extract_zeroExtend]
  · rw [Instr.format, Format.mustBeZero_s]
    exact (highBits_zero_iff 8 (by decide) _).2 (by simp [Instr.operand, extract_zeroExtend])

theorem ldi (v : F64) : Statement (.ldi v) :=
  of_row rfl (by simp [Instr.format, Format.mustBeZero]) (by simp [Instr.opcode, Instr.format, opcodeRows])

theorem lds (v : F64) : Statement (.lds v) :=
  of_row rfl (by simp [Instr.format, Format.mustBeZero]) (by simp [Instr.opcode, Instr.format, opcodeRows])

theorem ldc (c : CodeWord) : Statement (.ldc c) := by
  refine of_row ?_ ?_ (by simp [Instr.opcode, Instr.format, opcodeRows])
  · simp [Instr.opcode, Instr.operand, commandOf, extract_zeroExtend]
  · rw [Instr.format, Format.mustBeZero_c]
    exact (highBits_zero_iff 32 (by decide) _).2 (by simp [Instr.operand, extract_zeroExtend])

end Sys2Proof.Laws.RoundTrip
end

