-- ==== Sys2Proof/Machine/Assembler.lean ====
section
/-! DEFINITION. The text form of command sequences (30_encoding.md R78) and its pseudo-instructions (R79), over lists of
characters. Spacing, the case of hexadecimal digits, a leading minus sign and literals too wide for their format are
log 14. -/

namespace Sys2Proof.Machine

/-- The value of a digit in a base. -/
def digitValue (base : Nat) (c : Char) : Option Nat :=
  let n := c.toNat
  let v := if 48 ≤ n ∧ n ≤ 57 then n - 48
    else if 97 ≤ n ∧ n ≤ 102 then n - 87
    else if 65 ≤ n ∧ n ≤ 70 then n - 55
    else base
  if v < base then some v else none

/-- Digits to the right of a value already read. -/
def digitsFrom (base : Nat) : Nat → List Char → Option Nat
  | acc, [] => some acc
  | acc, c :: cs => (digitValue base c).bind fun v => digitsFrom base (acc * base + v) cs

/-- At least one digit, and nothing else. -/
def digits (base : Nat) (cs : List Char) : Option Nat :=
  if cs.isEmpty then none else digitsFrom base 0 cs

/-- An unsigned integer literal: decimal, `0x` hexadecimal or `0b` binary (R78). -/
def unsignedLiteral : List Char → Option Nat
  | '0' :: 'x' :: cs => digits 16 cs
  | '0' :: 'b' :: cs => digits 2 cs
  | cs => digits 10 cs

/-- An optional minus sign and what follows it. -/
def signed : List Char → Bool × List Char
  | '-' :: cs => (true, cs)
  | cs => (false, cs)

/-- What stands before and after the first character that satisfies `p`, if one does. -/
def cut (p : Char → Bool) : List Char → List Char × Option (List Char)
  | [] => ([], none)
  | c :: cs => if p c then ([], some cs) else let r := cut p cs; (c :: r.1, r.2)

/-- The binary64 value nearest to `± m * 10^(up - down)`. -/
def decimalValue (neg : Bool) (m up down : Nat) : Fp := Fp.round neg (Fp.unit * (m * 10 ^ up)) (10 ^ down)

/-- A decimal real literal: digits, perhaps a fraction, perhaps an exponent (R78). -/
def realLiteral (cs : List Char) : Option Fp :=
  let neg := (signed cs).1
  let parts := cut (fun c => c = 'e' || c = 'E') (signed cs).2
  let mant := cut (fun c => c = '.') parts.1
  let frac := mant.2.getD []
  if (digits 10 mant.1).isNone || (mant.2.isSome && (digits 10 frac).isNone) then none
  else
    (digits 10 (mant.1 ++ frac)).bind fun m =>
      match parts.2 with
      | none => some (decimalValue neg m 0 frac.length)
      | some e =>
        (digits 10 (signed e).2).map fun x =>
          if (signed e).1 then decimalValue neg m 0 (frac.length + x) else decimalValue neg m x frac.length

/-- A format V operand: `#0x` and sixteen hexadecimal digits, or a decimal real literal (R78). -/
def valueLiteral : List Char → Option F64
  | '#' :: '0' :: 'x' :: cs => if cs.length = 16 then (digits 16 cs).map (BitVec.ofNat 64) else none
  | cs => (realLiteral cs).map (bits64 0#52)

/-- A format S or format C operand: the literal as `arg`. A literal too wide for its format is still written out, as the
illegal word T16 shows for `BWR 256` (R75), never truncated; one that needs more than 64 bits has no word (DESIGN
CHOICE, log 14). -/
def unsignedOperand (cs : List Char) : Option (BitVec 64) :=
  (unsignedLiteral cs).bind fun n => if n < 2 ^ 64 then some (BitVec.ofNat 64 n) else none

/-- Text without leading and trailing spaces. -/
def trim (cs : List Char) : List Char :=
  ((cs.dropWhile (· = ' ')).reverse.dropWhile (· = ' ')).reverse

/-- The operands of a line: separated by commas, none at all when the text is blank. -/
def operandTexts (cs : List Char) : List (List Char) :=
  if trim cs = [] then [] else (cs.splitOn ',').map trim

/-- A mnemonic and its operand texts. -/
abbrev Line := List Char × List (List Char)

/-- The commands without operand (R73). -/
def plainMnemonics : List (List Char × Instr) :=
  [(['S', 'T', 'A', 'T'], .stat)]
  ++ [(['B', 'C', 'L', 'R'], .bclr), (['B', 'A', 'V', 'L'], .bavl), (['B', 'R', 'D'], .brd)]
  ++ [(['B', 'S', 'A', 'V', 'E'], .bsave), (['B', 'R', 'E', 'T'], .bret)]
  ++ [(['S', 'R', 'S', 'T'], .srst), (['S', 'R', 'E', 'M'], .srem), (['S', 'G', 'E', 'T'], .sget)]
  ++ [(['C', 'M', 'P'], .cmp), (['C', 'L', 'S', 'F'], .clsf), (['R', 'D', 'S', 'C'], .rdsc)]
  ++ [(['R', 'D', 'B', 'E', 'S', 'T'], .rdbest), (['R', 'D', 'B', 'E', 'R', 'R'], .rdberr)]

/-- The word of a command's line (R70, R78). -/
def assembleCommand : Line → Option CommandWord
  | (m, []) => (plainMnemonics.lookup m).map encode
  | (['B', 'W', 'R'], [a]) => (unsignedOperand a).map fun arg => Instr.opcode (.bwr 0#8) ++ arg
  | (['L', 'D', 'I'], [a]) => (valueLiteral a).map fun v => encode (.ldi v)
  | (['L', 'D', 'S'], [a]) => (valueLiteral a).map fun v => encode (.lds v)
  | (['L', 'D', 'C'], [a]) => (unsignedOperand a).map fun arg => Instr.opcode (.ldc 0#32) ++ arg
  | _ => none

/-- `SRESET itv, spd, code` (R79). -/
def pseudoSreset (itv spd code : List Char) : List Line :=
  [(['L', 'D', 'I'], [itv]), (['L', 'D', 'S'], [spd]), (['L', 'D', 'C'], [code]), (['S', 'R', 'S', 'T'], [])]

/-- `CLASSIFY itv, spd` (R79). -/
def pseudoClassify (itv spd : List Char) : List Line :=
  [(['L', 'D', 'I'], [itv]), (['L', 'D', 'S'], [spd]), (['C', 'L', 'S', 'F'], [])]

/-- `BFILL v1, v2, .., vk` (R79). The spec gives `k` no lower bound: a line without operand is taken as `k = 0` and expands
to no command (DESIGN CHOICE, log 14). -/
def pseudoBfill (vs : List (List Char)) : List Line := vs.map fun v => (['B', 'W', 'R'], [v])

/-- `COMPARE itv, spd, code` (R79). -/
def pseudoCompare (itv spd code : List Char) : List Line := pseudoSreset itv spd code ++ [(['C', 'M', 'P'], [])]

/-- The lines a line stands for: a pseudo-instruction's expansion (R79), else the line itself. -/
def expandLine : Line → List Line
  | (['S', 'R', 'E', 'S', 'E', 'T'], [itv, spd, code]) => pseudoSreset itv spd code
  | (['C', 'L', 'A', 'S', 'S', 'I', 'F', 'Y'], [itv, spd]) => pseudoClassify itv spd
  | (['B', 'F', 'I', 'L', 'L'], vs) => pseudoBfill vs
  | (['C', 'O', 'M', 'P', 'A', 'R', 'E'], [itv, spd, code]) => pseudoCompare itv spd code
  | l => [l]

/-- One line of text: no command for a blank or comment line, `none` for a line that is not of the form R78 gives. -/
def assembleLine (line : List Char) : Option (List CommandWord) :=
  let text := trim (cut (fun c => c = ';') line).1
  if text = [] then some []
  else
    let w := cut (fun c => c = ' ') text
    (expandLine (w.1, operandTexts (w.2.getD []))).mapM assembleCommand

/-- A command sequence: one command a line. -/
def assemble (lines : List (List Char)) : Option (List CommandWord) :=
  (lines.mapM assembleLine).map List.flatten

/-- The lower-case hexadecimal digit of a value. -/
def hexDigit (n : Nat) : Char := Char.ofNat (if n < 10 then 48 + n else 87 + n)

/-- `k` hexadecimal digits of a value, most significant first. -/
def hexDigits : Nat → Nat → List Char
  | 0, _ => []
  | k + 1, n => hexDigits k (n / 16) ++ [hexDigit (n % 16)]

/-- A word written as `op:arg` (R78). -/
def listing (w : CommandWord) : List Char :=
  hexDigits 2 (opOf w).toNat ++ [':'] ++ hexDigits 16 (argOf w).toNat

end Sys2Proof.Machine
end

