-- ==== Sys2Proof/Tests/Slice0.lean ====
section
/-! SUPPORT. Tests of single steps, each expected result from the spec (the rule's own example, or the vector of
95_test_vectors.md that the comment names), and for every statement with hypotheses a witness that meets them. -/

namespace Sys2Proof.Tests

open Sys2Proof.Machine

/-! ### Small states -/

/-- An instance of capacity `n`. -/
def cfgOf (n : Nat) (dict : List DictEntry) (h : 1 ≤ n ∧ dict.length ≤ 65535 := by decide) : Config :=
  ⟨n, dict, h.1, h.2⟩

/-- PANA's example capacity 5 (R11), straight after reset. -/
def idle5 : State := State.resetOf (cfgOf 5 [])

/-- The two dictionary entries PANA gives (N1). -/
def df5 : List DictEntry := [⟨0xae8#32, 0x46#8⟩, ⟨0xaa8#32, 0x35#8⟩]

/-- Cells `0, 1, ..` holding the given samples. -/
def cells (vs : List Sample) : List Host.Cell := vs.mapIdx fun i v => (i, v)

/-- A buffer state of `s`. -/
def withBuf (s : State) (vs : List Sample) (rd wr : Nat) (full : Bool) : State :=
  { s with buf := { s.buf with store := cells vs, rd := rd, wr := wr, full := full } }

/-- The operand registers of `s`. -/
def withOpr (s : State) (itv spd : F64) (cwr : CodeWord) : State :=
  { s with opr := { itv := itv, spd := spd, cwr := cwr } }

/-- A sampler of samples-per-dit 2 with the code `0b101` (T7), `rem` samples to go. -/
def sampler2 (wcode : CodeWord) (fracAcc : F64) (intAcc rem : Count) : Smp :=
  { wcode := wcode, wlen := 3, spdit := 0x4000000000000000#64, dps := 0x3fe0000000000000#64,
    fracAcc := fracAcc, intAcc := intAcc, rem := rem, sInit := true }

/-- The state a command leaves, if it answers one. -/
def after (i : Instr) (s : State) : Option State :=
  match exec i s with
  | .next t => some t
  | .fault _ | .refused _ => none

/-- The state a step leaves, if it answers one. -/
def afterStep (s : State) : Option State :=
  match step s with
  | .next t => some t
  | .fault _ | .refused _ => none

/-- Read cursor, write cursor, full flag and response after a command. -/
def bufAfter (i : Instr) (s : State) : Option (Nat × Nat × Bool × Option Response) :=
  (after i s).map fun t => (t.buf.rd, t.buf.wr, t.buf.full, t.rsp)

/-- Fault registers and response after a command. -/
def faultAfter (i : Instr) (s : State) : Option (FaultRegs × Option Response) :=
  (after i s).map fun t => (t.flt, t.rsp)

/-! ### Well-formed words, configurations -/

-- T16, R75: a reserved opcode; a format Z, S and C word with a reserved operand bit set.
theorem test_illformed_reserved_opcode : legalWord 0x020000000000000000#72 = false := by decide
theorem test_illformed_z_operand : legalWord 0x100000000000000001#72 = false := by decide
theorem test_illformed_s_operand : legalWord 0x110000000000000100#72 = false := by decide
theorem test_illformed_c_operand : legalWord 0x220000000100000000#72 = false := by decide
theorem test_wellformed_words :
    [0x1100000000000000ff#72, 0x2200000000ffffffff#72, 0x207ff8000000000000#72, 0x130000000000000000#72].all
      legalWord = true := by decide
-- R11: a zero capacity is refused; R14: so is a dictionary that is too long.
theorem test_illformed_zero_capacity : Config.instantiate 0 [] = none := by decide
theorem test_illformed_long_dictionary :
    Config.instantiate 1 (List.replicate 65536 ⟨1#32, 0#8⟩) = none := by
  unfold Config.instantiate
  rw [dif_neg]
  rintro ⟨-, h⟩
  rw [List.length_replicate] at h
  omega
theorem test_wellformed_configuration : (Config.instantiate 5 df5).isSome = true := by decide

/-! ### Decoding: words written out bit by bit from R70, R71, R73 (`op` in bits 71:64, `arg` in bits 63:0) -/

theorem test_decode_stat : decode (0b00000001#8 ++ 0#64) = .command .stat := by decide
theorem test_decode_bclr : decode (0b00010000#8 ++ 0#64) = .command .bclr := by decide
theorem test_decode_bwr : decode (0b00010001#8 ++ 0#56 ++ 0b10000001#8) = .command (.bwr 0x81#8) := by decide
theorem test_decode_bavl : decode (0b00010010#8 ++ 0#64) = .command .bavl := by decide
theorem test_decode_brd : decode (0b00010011#8 ++ 0#64) = .command .brd := by decide
theorem test_decode_bsave : decode (0b00010100#8 ++ 0#64) = .command .bsave := by decide
theorem test_decode_bret : decode (0b00010101#8 ++ 0#64) = .command .bret := by decide
-- R120, R121, R122 examples: `LDI 8`, `LDS 12.5`, `LDC 0xae8`.
theorem test_decode_ldi : decode 0x204020000000000000#72 = .command (.ldi 0x4020000000000000#64) := by decide
theorem test_decode_lds : decode 0x214029000000000000#72 = .command (.lds 0x4029000000000000#64) := by decide
theorem test_decode_ldc : decode 0x220000000000000ae8#72 = .command (.ldc 0xae8#32) := by decide
theorem test_decode_srst : decode (0b00100011#8 ++ 0#64) = .command .srst := by decide
theorem test_decode_srem : decode (0b00100100#8 ++ 0#64) = .command .srem := by decide
theorem test_decode_sget : decode (0b00100101#8 ++ 0#64) = .command .sget := by decide
theorem test_decode_cmp : decode (0b00110000#8 ++ 0#64) = .command .cmp := by decide
theorem test_decode_clsf : decode (0b00110001#8 ++ 0#64) = .command .clsf := by decide
theorem test_decode_rdsc : decode (0b00110010#8 ++ 0#64) = .command .rdsc := by decide
theorem test_decode_rdbest : decode (0b00110011#8 ++ 0#64) = .command .rdbest := by decide
theorem test_decode_rdberr : decode (0b00110100#8 ++ 0#64) = .command .rdberr := by decide
-- T16: the all-zero and the all-ones word, the opcodes next to the map, operands that do not fit.
theorem test_decode_reserved :
    [0x000000000000000000#72, 0xffffffffffffffffff#72, 0x020000000000000000#72, 0x160000000000000000#72,
      0x260000000000000000#72, 0x350000000000000000#72].all
      (fun w => decode w == .illegal .reservedOpcode) = true := by decide
theorem test_decode_reserved_operand :
    [0x100000000000000001#72, 0x110000000000000100#72, 0x220000000100000000#72, 0x010000000000000001#72].all
      (fun w => decode w == .illegal .reservedOperandBit) = true := by decide

/-! ### A row of the opcode table runs as the first command after reset -/

/-- The `match` words of the opcode table. -/
def tableMatches : List Nat :=
  [0x010000000000000000, 0x100000000000000000, 0x110000000000000000, 0x120000000000000000, 0x130000000000000000]
  ++ [0x140000000000000000, 0x150000000000000000, 0x200000000000000000, 0x210000000000000000]
  ++ [0x220000000000000000, 0x230000000000000000, 0x240000000000000000, 0x250000000000000000]
  ++ [0x300000000000000000, 0x310000000000000000, 0x320000000000000000, 0x330000000000000000, 0x340000000000000000]

theorem test_table_rows_decode : tableMatches.all (fun w => (decodeTableWord 72 w).isSome) = true := by decide
theorem test_table_rows_run :
    tableMatches.all (fun w => safeStep (State.reset.withFetchWord 72 w)) = true := by decide +kernel

/-! ### Binary64 (00_scope.md R17, G3) -/

-- R123 example: 1200/12 = 100, 100/8 = 12.5, 1/12.5 = the binary64 nearest 0.08, 12 * 12.5 = 150.
theorem test_fdiv : bits64 0#52 (fdiv (cvt 1) (fmt64 0x4029000000000000#64)) = 0x3fb47ae147ae147b#64 := by
  decide +kernel
-- T5: 0.9599999999999999 + 0.08 = 1.0399999999999998.
theorem test_fadd : bits64 0#52 (fadd (fmt64 0x3feeb851eb851eb7#64) (fmt64 0x3fb47ae147ae147b#64))
    = 0x3ff0a3d70a3d70a3#64 := by decide +kernel
-- T8: 11 * 21.818181818181817 = 239.99999999999997.
theorem test_fmul : bits64 0#52 (fmul (cvt 11) (fmt64 0x4035d1745d1745d1#64)) = 0x406dffffffffffff#64 := by
  decide +kernel
-- T13: sqrt(13) / 2.
theorem test_fsqrt : bits64 0#52 (fdiv (fsqrt (cvt 13)) (cvt 2)) = 0x3ffcd82b446159f3#64 := by decide +kernel
-- R17: x / +0 = +inf, x / +inf = +0, 0 * inf = NaN, no comparison holds of a NaN.
theorem test_fp_specials :
    fdiv (cvt 1) (cvt 0) = .inf false ∧ fdiv (cvt 1) (.inf false) = .fin false 0 ∧
    fmul (cvt 0) (.inf false) = .nan ∧ flt .nan (cvt 1) = false ∧ flt (cvt 1) .nan = false := by decide +kernel

/-! ### System -/

-- R170: straight after reset, and after a BRET without a checkpoint.
theorem test_stat_reset : (after .stat State.reset).map (·.rsp) = some (some 0x2#64) := by decide
theorem test_stat_faulted :
    (after .stat (idle5.raise .noCheckpoint 0x15#8 0)).map (·.rsp) = some (some 0x150282#64) := by decide
-- T16: `BWR 256` is illegal; T17: while faulted STAT's operand is ignored and a reserved word is not recorded.
theorem test_illegal_word :
    (afterStep { idle5 with host := [.command 0x110000000000000100#72] }).map (fun t => (t.flt, t.rsp, t.buf.wr))
      = some (⟨true, 1#4, 0x11#8, 0#16⟩, some 0#64, 0) := by decide
theorem test_stat_operand_ignored :
    (afterStep { idle5.raise .noCheckpoint 0x15#8 0 with host := [.command 0x0100000000deadbeef#72] }).map (·.rsp)
      = some (some 0x150282#64) := by decide
-- P5 rows 6 and 8: a reserved word while faulted, and hardware reset.
theorem test_reserved_word_ignored :
    (afterStep { idle5.raise .noCheckpoint 0x15#8 0 with host := [.command 0x7f0000000000000000#72] }).map
      (fun t => (t.flt, t.rsp)) = some (⟨true, 2#4, 0x15#8, 0#16⟩, some 0#64) := by decide
theorem test_reset_clears_fault :
    afterStep { withBuf (idle5.raise .noCheckpoint 0x15#8 0) [1#8] 0 1 false with host := [.reset] } = some idle5 := by
  decide

/-! ### Circular sample buffer -/

-- R101 example.
theorem test_bclr : bufAfter .bclr (withBuf idle5 [] 2 4 false) = some (0, 0, false, some 0#64) := by decide
-- R102 example: the write that fills the buffer, and the overwrite after it.
theorem test_bwr_fills :
    (after (.bwr 5#8) (withBuf idle5 [1#8, 2#8, 3#8, 4#8] 0 4 false)).map (·.buf.store)
      = some (cells [1#8, 2#8, 3#8, 4#8, 5#8]) ∧
    bufAfter (.bwr 5#8) (withBuf idle5 [1#8, 2#8, 3#8, 4#8] 0 4 false) = some (0, 0, true, some 0#64) := by decide
theorem test_bwr_overwrites :
    (after (.bwr 6#8) (withBuf idle5 [1#8, 2#8, 3#8, 4#8, 5#8] 0 0 true)).map (fun t => (t.buf.store, t.buf.rd, t.buf.full))
      = some (cells [6#8, 2#8, 3#8, 4#8, 5#8], 1, true) := by decide
-- R103 example: wrapped, and full.
-- R11 and R110's corner: one cell, five cells, eight cells.
theorem test_cursor_widths : cursorWidth 1 = 1 ∧ cursorWidth 5 = 3 ∧ cursorWidth 8 = 3 := by decide
theorem test_count_widths : countWidth 1 = 1 ∧ countWidth 5 = 3 ∧ countWidth 8 = 4 := by decide
theorem test_bavl_wrapped : (after .bavl (withBuf idle5 [] 3 1 false)).map (·.rsp) = some (some 3#64) := by decide
theorem test_bavl_full : (after .bavl (withBuf idle5 [] 2 2 true)).map (·.rsp) = some (some 5#64) := by decide
-- R104 example; and the read at the last cell wraps (R110).
theorem test_brd_full :
    bufAfter .brd (withBuf idle5 [6#8, 7#8, 3#8, 4#8, 5#8] 2 2 true) = some (3, 2, false, some 3#64) := by decide
theorem test_brd_empty : bufAfter .brd (withBuf idle5 [9#8, 9#8, 9#8] 2 2 false) = some (2, 2, false, some 0#64) := by
  decide
-- R105 example.
theorem test_bsave :
    (after .bsave (withBuf idle5 [] 2 2 true)).map (fun t => (t.buf.ckRd, t.buf.ckFull, t.buf.ckv))
      = some (2, true, true) := by decide
-- R106 example, and the fault.
theorem test_bret :
    bufAfter .bret { idle5 with buf := { idle5.buf with rd := 4, wr := 2, ckRd := 2, ckFull := true, ckv := true } }
      = some (2, 2, true, some 0#64) := by decide
theorem test_bret_no_checkpoint :
    faultAfter .bret idle5 = some (⟨true, 2#4, 0x15#8, 0#16⟩, some 0#64) := by decide
-- U3: a cell never written gives a free draw, and the next one a fresh draw.
theorem test_brd_unwritten :
    (after .brd (withBuf idle5 [] 1 0 false)).map (fun t => (t.buf.rd, t.buf.draws)) = some (2, 1) := by decide

/-! ### Waveform sampler -/

-- R120, R121, R122 examples.
theorem test_ldi : (after (.ldi 0x4020000000000000#64) idle5).map (·.opr.itv) = some 0x4020000000000000#64 := by decide
theorem test_lds : (after (.lds 0x4028000000000000#64) idle5).map (·.opr.spd) = some 0x4028000000000000#64 := by decide
theorem test_ldc : (after (.ldc 0xae8#32) idle5).map (·.opr.cwr) = some 0xae8#32 := by decide

/-- R123 example: interval 8, speed 12, code `0xae8`. -/
def primed : State := withOpr idle5 0x4020000000000000#64 0x4028000000000000#64 0xae8#32

theorem test_srst :
    (after .srst primed).map (fun t => (t.smp, t.rsp)) = some
      ({ wcode := 0xae800000#32, wlen := 12, spdit := 0x4029000000000000#64, dps := 0x3fb47ae147ae147b#64,
         fracAcc := 0#64, intAcc := 0#32, rem := 150#32, sInit := true }, some 150#64) := by decide +kernel
-- T9, counter boundary: 2^-31 fits, 2^-32 does not.
theorem test_srst_counter_boundary :
    (after .srst (withOpr idle5 0x3e00000000000000#64 0x4092c00000000000#64 1#32)).map (·.rsp)
      = some (some 0x80000000#64) ∧
    faultAfter .srst (withOpr idle5 0x3df0000000000000#64 0x4092c00000000000#64 1#32)
      = some (⟨true, 4#4, 0x23#8, 0#16⟩, some 0#64) := by decide +kernel
-- R124 example.
theorem test_srem : (after .srem { idle5 with smp := sampler2 0#32 0#64 0#32 150#32 }).map (·.rsp) = some (some 150#64) := by
  decide
theorem test_srem_uninit : faultAfter .srem idle5 = some (⟨true, 5#4, 0x24#8, 0#16⟩, some 0#64) := by decide
-- R125 example, second call: emits the old top bit, carries, shifts. T9: the sentinel.
theorem test_sget_carries :
    (after .sget { idle5 with smp := sampler2 0xa0000000#32 0x3fe0000000000000#64 0#32 5#32 }).map
      (fun t => (t.smp, t.rsp)) = some (sampler2 0x40000000#32 0x3ff0000000000000#64 1#32 4#32, some 1#64) := by
  decide +kernel
theorem test_sget_single_carry :
    (after .sget { idle5 with
      smp := { sampler2 0xd0000000#32 0#64 0#32 1#32 with dps := 0x4008000000000000#64 } }).map
      (fun t => (t.smp.fracAcc, t.smp.intAcc, t.smp.wcode, t.smp.rem))
      = some (0x4008000000000000#64, 1#32, 0xa0000000#32, 0#32) := by decide +kernel

/-! ### Classifier -/

-- T13, underrun: buffer `1 1 0 0`, generated `1 1 0 0 1 1`.
theorem test_cmp_underrun :
    (after .cmp { withBuf (State.resetOf (cfgOf 8 [])) [1#8, 1#8, 0#8, 0#8] 0 4 false with
      smp := sampler2 0xa0000000#32 0#64 0#32 6#32 }).map
      (fun t => (t.rsp, t.cls.undr, t.buf.rd, t.buf.ckv, t.smp.rem))
      = some (some 0x3fce2b7dddfefa67#64, true, 0, true, 0#32) := by decide +kernel
-- T13, largest sample: 254^2 over one pair.
theorem test_cmp_largest_sample :
    (after .cmp { withBuf idle5 [255#8] 0 1 false with smp := sampler2 0x80000000#32 0#64 0#32 1#32 }).map (·.rsp)
      = some (some 0x406fc00000000000#64) := by decide +kernel

/-- The buffered symbol of R150's and R153's examples, interval 100, speed 12, dictionary `DF5`. -/
def searching : State :=
  withOpr (withBuf (State.resetOf (cfgOf 16 df5))
    ([1#8, 0#8, 1#8, 0#8, 1#8, 0#8] ++ [1#8, 0#8, 1#8, 0#8, 0#8, 0#8]) 0 12 false)
    0x4059000000000000#64 0x4028000000000000#64 0#32

-- R153 example.
theorem test_clsf :
    (after .clsf searching).map (fun t => (t.rsp, t.cls.besterr, t.buf.rd, t.buf.wr, t.flt.fault))
      = some (some 0x1350001#64, 0#64, 0, 12, false) := by decide +kernel
-- T15: the second entry has no samples.
theorem test_clsf_fault :
    (after .clsf (withOpr (withBuf
      (State.resetOf (cfgOf 8 [⟨2#32, 0x41#8⟩, ⟨0#32, 0x3f#8⟩, ⟨3#32, 0x42#8⟩])) [1#8, 0#8] 0 2 false)
      0x4059000000000000#64 0x4028000000000000#64 0#32)).map
      (fun t => (t.flt, t.rsp, t.cls.bestv)) = some (⟨true, 6#4, 0x31#8, 1#16⟩, some 0#64, false) := by
  decide +kernel

/-- Result registers as after R153's example. -/
def searched : State :=
  { idle5 with cls := { score := 0x3fb5555555555555#64, bestv := true, bestidx := 1#16, bestsym := 0x35#8,
                        besterr := 0x3fe0000000000000#64, undr := false } }

-- R154, R155 examples; R156 on T14's second result.
theorem test_rdsc : (after .rdsc searched).map (·.rsp) = some (some 0x3fb5555555555555#64) := by decide
theorem test_rdbest : (after .rdbest searched).map (·.rsp) = some (some 0x1350001#64) := by decide
theorem test_rdberr : (after .rdberr searched).map (·.rsp) = some (some 0x3fe0000000000000#64) := by decide

/-! ### Assembler text (R78, R79) -/

-- R78's own examples, a comment, and T16's operand that does not fit.
theorem test_assemble_bwr : assembleLine ['B', 'W', 'R', ' ', '3'] = some [encode (.bwr 3#8)] := by decide
theorem test_assemble_ldi : assembleLine ['L', 'D', 'I', ' ', '8'] = some [0x204020000000000000#72] := by
  decide +kernel
theorem test_assemble_ldc :
    assembleLine ['L', 'D', 'C', ' ', '0', 'x', 'a', 'e', '8', ' ', ';', 'F'] =
      some [0x220000000000000ae8#72] := by decide
theorem test_assemble_too_wide :
    assembleLine ['B', 'W', 'R', ' ', '2', '5', '6'] = some [0x110000000000000100#72] := by decide
theorem test_assemble_bfill :
    assembleLine ['B', 'F', 'I', 'L', 'L', ' ', '1', ',', ' ', '2'] =
      some [0x110000000000000001#72, 0x110000000000000002#72] := by decide
-- Log 14: no operand is `k = 0`.
theorem test_assemble_bfill_none : assembleLine ['B', 'F', 'I', 'L', 'L'] = some [] := by decide
theorem test_listing :
    listing (encode (.bwr 3#8)) = ['1', '1', ':'] ++ List.replicate 15 '0' ++ ['3'] := by decide

/-! ### Witnesses: the hypotheses of each statement can be met -/

/-- A live state with everything in range: two written unread samples, a checkpoint, two samples to generate. -/
def live : State :=
  { withBuf idle5 [1#8, 0#8, 1#8] 1 3 false with smp := sampler2 0xa0000000#32 0#64 0#32 2#32 }

/-- `s` with the host presenting `w`. -/
def presented (s : State) (w : CommandWord) : State := { s with host := [.command w] }

/-- A faulted state. -/
def dead : State := live.raise .noCheckpoint 0x15#8 0

theorem witness_EncodeOfDecodeIsTheWord : decode 0x130000000000000000#72 = .command .brd := by decide
theorem witness_DecoderAcceptsExactlyTheMaskedRows :
    legalWord 0x130000000000000000#72 = true ∧ legalWord 0xffffffffffffffffff#72 = false := by decide
theorem witness_NoWordFitsTwoRows :
    ((0x13#8, Format.z) ∈ opcodeRows) ∧ fitsRow 0x130000000000000000#72 (0x13#8, Format.z) = true := by decide
theorem witness_StepRunsTheDecodedCommand :
    (presented live 0x130000000000000000#72).host = .command 0x130000000000000000#72 :: [] ∧
    decode 0x130000000000000000#72 = .command .brd := by decide
theorem witness_ReservedWordRaisesIllegalCommand :
    (presented live 0#72).host = .command 0#72 :: [] ∧ legalWord 0#72 = false ∧
    (presented live 0#72).flt.fault = false := by decide
theorem witness_WhileFaultedOnlyStatExecutes :
    (presented dead 0x0100000000deadbeef#72).host = .command 0x0100000000deadbeef#72 :: [] ∧
    (presented dead 0x0100000000deadbeef#72).flt.fault = true ∧
    (0x0100000000deadbeef#72).extractLsb' 64 8 = 0x01#8 ∧
    (0x130000000000000000#72).extractLsb' 64 8 ≠ 0x01#8 := by decide
theorem witness_IdlenessChangesNothing : live.host = [] := by decide
theorem witness_FaultRecordStaysUntilReset :
    ∃ t, (presented dead 0x130000000000000000#72).flt.fault = true ∧
      (presented dead 0x130000000000000000#72).host = .command 0x130000000000000000#72 :: [] ∧
      step (presented dead 0x130000000000000000#72) = .next t := ⟨_, rfl, rfl, rfl⟩
theorem witness_ResetGivesTheSpecifiedValues : ({ dead with host := [.reset] } : State).host = .reset :: [] := by decide
theorem witness_BclrEmptiesTheBuffer : live.flt.fault = false := by decide
theorem witness_BsaveCapturesTheReadPoint : live.flt.fault = false := by decide
theorem witness_OperandLoadsWriteTheirRegister : live.flt.fault = false := by decide
theorem witness_RdscReturnsTheScore : live.flt.fault = false := by decide
theorem witness_RdbestReturnsTheBestEntry : live.flt.fault = false := by decide
theorem witness_RdberrReturnsTheBestError : live.flt.fault = false := by decide
theorem witness_SgetCountsDownToZero : live.flt.fault = false ∧ live.smp.sInit = true := by decide
/-- The write cursor at its last cell. -/
theorem witness_BwrStoresAtTheWriteCursor :
    (withBuf idle5 [] 0 4 false).flt.fault = false ∧ (withBuf idle5 [] 0 4 false).buf.wr < 5 ∧
    (withBuf idle5 [] 0 4 false).cfg.capacity = 5 := by decide
/-- Full; equal cursors and not full (the boundary of the second clause); wrapped. -/
theorem witness_BavlReturnsTheUnreadCount :
    (∀ rd wr full, (withBuf idle5 [] rd wr full).flt.fault = false) ∧ (withBuf idle5 [] 2 2 true).buf.full = true ∧
    ((withBuf idle5 [] 2 2 false).buf.full = false ∧ (withBuf idle5 [] 2 2 false).buf.rd ≤ (withBuf idle5 [] 2 2 false).buf.wr) ∧
    ((withBuf idle5 [] 3 2 false).buf.full = false ∧ (withBuf idle5 [] 3 2 false).buf.wr < (withBuf idle5 [] 3 2 false).buf.rd) :=
  ⟨fun _ _ _ => rfl, by decide⟩
theorem witness_UnreadCountIsBounded :
    (withBuf idle5 [] 4 0 false).buf.rd < 5 ∧ (withBuf idle5 [] 4 0 false).buf.wr < 5 := by decide
theorem witness_BrdReturnsOldestSampleOrSentinel :
    (idle5.flt.fault = false ∧ idle5.buf.rd = idle5.buf.wr ∧ idle5.buf.full = false) ∧
    ((withBuf idle5 [] 4 4 true).flt.fault = false ∧ ¬((withBuf idle5 [] 4 4 true).buf.rd = 4 ∧ (withBuf idle5 [] 4 4 true).buf.full = false) ∧
      (withBuf idle5 [] 4 4 true).buf.rd < (withBuf idle5 [] 4 4 true).cfg.capacity) := by decide
theorem witness_BretRestoresOrRaisesNoCheckpoint :
    (∃ t, exec .bsave live = .next t ∧ t.flt.fault = false ∧ t.buf.ckv = true) ∧
    live.flt.fault = false ∧ live.buf.ckv = false :=
  ⟨⟨_, rfl, rfl, rfl⟩, rfl, rfl⟩
/-- A cursor at 5 in a store of 5 cells. -/
theorem witness_CursorOutsideTheStoreStops :
    ((withBuf idle5 [] 0 5 false).flt.fault = false ∧ (withBuf idle5 [] 0 5 false).cfg.capacity ≤ (withBuf idle5 [] 0 5 false).buf.wr) ∧
    ((withBuf live [] 5 0 false).cfg.capacity ≤ (withBuf live [] 5 0 false).buf.rd ∧
      (withBuf live [] 5 0 false).buf.empty = false ∧ (withBuf live [] 5 0 false).flt.fault = false ∧
      (withBuf live [] 5 0 false).smp.sInit = true ∧ (withBuf live [] 5 0 false).smp.rem ≠ 0#32) := by decide
/-- The clause on CLSF: a dictionary whose first entry resets with samples, the read cursor at the end of the store. -/
theorem witness_CursorOutsideTheStoreStops_clsf :
    (withBuf searching [] 16 0 false).flt.fault = false ∧ (withBuf searching [] 16 0 false).cfg.capacity ≤ 16 ∧
    (withBuf searching [] 16 0 false).buf.empty = false ∧ (withBuf searching [] 16 0 false).cfg.dict = df5 ∧
    (match smpReset searching.opr.itv searching.opr.spd 0xae8#32 with
      | .ok g => decide (g.rem ≠ 0#32) | .error _ => false) = true := by decide +kernel
theorem witness_BufferRefinesABoundedQueue :
    live.flt.fault = false ∧ live.buf.consistent live.cfg.capacity = true ∧
    (withBuf idle5 [] 4 4 true).flt.fault = false ∧ (withBuf idle5 [1#8, 2#8, 3#8, 4#8, 5#8] 4 4 true).buf.consistent 5 = true := by decide
theorem witness_CapacityLaw :
    idle5.flt.fault = false ∧ idle5.buf.consistent idle5.cfg.capacity = true ∧ idle5.buf.empty = true := by decide
theorem witness_ReadsReturnTheWritesInOrder :
    idle5.flt.fault = false ∧ idle5.buf.consistent idle5.cfg.capacity = true ∧ idle5.buf.empty = true ∧
    [1#8, 2#8, 3#8, 4#8, 5#8].length ≤ idle5.cfg.capacity := by decide
theorem witness_ReplayRestoresTheReadPoint :
    live.flt.fault = false ∧ live.buf.rd < live.cfg.capacity ∧
    [Instr.brd, .bavl, .stat, .brd, .brd].all isReplaySafe = true ∧
    [Instr.brd, .bavl, .stat, .brd, .brd].all neverFaults = true ∧
    [Instr.brd, .sget, .srem].all isReplaySafe = true := by decide
/-- Commands that could fault and here do not. -/
theorem witness_ReplayRestoresTheReadPoint_sampler :
    (runCommands [.bsave, .brd, .sget, .srem] live).map (fun r => r.2.flt.fault) = some false := by decide
/-- Two unread of five: two writes are case (a) at its bound, three are case (b). -/
theorem witness_StaleCheckpointCases :
    live.flt.fault = false ∧ live.buf.consistent live.cfg.capacity = true ∧ live.cfg.capacity = 5 ∧
    [Instr.bwr 7#8, .brd, .bwr 8#8].all isAccess = true ∧ [Instr.bwr 7#8, .bwr 8#8, .bwr 9#8].all isAccess = true ∧
    live.buf.avail 5 + (writtenSamples [.bwr 7#8, .brd, .bwr 8#8]).length ≤ 5 - 1 ∧
    [Instr.bwr 7#8, .brd, .bwr 8#8].all neverFaults = true ∧
    live.buf.avail 5 + (writtenSamples [.bwr 7#8, .bwr 8#8, .bwr 9#8]).length = 5 ∧ live.buf.full = false := by decide
theorem witness_PatternsRoundTripThroughValues : fmt64 0x8000000000000000#64 ≠ .nan := by decide
theorem witness_RoundedValuesHaveAPattern : 0 < 3 := by decide
/-- `2^53 + 1` lies halfway between two representable magnitudes. -/
theorem witness_RoundingIsToNearestTiesToEven :
    0 < 1 ∧ Representable (2 ^ 53 + 2) ∧ 2 ^ 53 + 2 ≠ roundMag (2 ^ 53 + 1) 1 ∧
    ((roundMag (2 ^ 53 + 1) 1 : Int) * (1 : Nat) - (2 ^ 53 + 1 : Nat)).natAbs
      = (((2 ^ 53 + 2 : Nat) : Int) * (1 : Nat) - (2 ^ 53 + 1 : Nat)).natAbs :=
  ⟨by decide, ⟨2 ^ 52 + 1, 1, by decide, by decide⟩, by decide +kernel, by decide +kernel⟩
theorem witness_ConversionIsExactBelowTwoToThe53 : 2 ^ 53 - 1 < 2 ^ 53 := by decide
/-- The least positive magnitude and the greatest below the limit; and a tie: the root of `(2^53 + 1)^2` lies in the middle
of two representable magnitudes. -/
theorem witness_IntegerSquareRootIsFloor :
    0 < 1 ∧ 1 < Fp.limit ∧ Fp.limit - 1 < Fp.limit ∧
    Representable (2 ^ 590) ∧ Representable ((2 ^ 52 + 1) * 2 ^ 538) ∧
    ((2 ^ 52 + 1) * 2 ^ 538 + 2 ^ 590) * ((2 ^ 52 + 1) * 2 ^ 538 + 2 ^ 590) = 4 * (Fp.unit * (2 ^ 53 + 1) ^ 2) := by
  have hu : Fp.unit = 2 ^ 1074 := by unfold Fp.unit; rfl
  have hl : Fp.limit = 2 ^ 2098 := by unfold Fp.limit; rfl
  refine ⟨by decide, ?_, ?_, ⟨1, 590, by decide, (Nat.one_mul _).symm⟩, ⟨2 ^ 52 + 1, 538, by decide, rfl⟩, ?_⟩
  · rw [hl]; exact Nat.one_lt_two_pow (by decide)
  · rw [hl]; have := Nat.two_pow_pos 2098; omega
  · rw [hu]; decide +kernel
theorem witness_NormaliseFindsTheSignificantLength : (0#32 = 0#32) ∧ (0x80000000#32 ≠ 0#32) := by decide
/-- Bad timing; overflow; a reset that commits. -/
theorem witness_SrstResetsTheSamplerOrFaults :
    idle5.flt.fault = false ∧ primed.flt.fault = false ∧ fgt0 (fmt64 idle5.opr.itv) = false ∧
    (finite (fmt64 0x3df0000000000000#64) = true ∧ fgt0 (fmt64 0x3df0000000000000#64) = true ∧
      finite (fmt64 0x4092c00000000000#64) = true ∧ fgt0 (fmt64 0x4092c00000000000#64) = true ∧
      flt (fmul (cvt (normalise 32 1#32).1)
        (fdiv (fdiv (cvt 1200) (fmt64 0x4092c00000000000#64)) (fmt64 0x3df0000000000000#64))) (cvt (2 ^ 32)) = false) ∧
    (finite (fmt64 primed.opr.itv) = true ∧ fgt0 (fmt64 primed.opr.itv) = true ∧
      finite (fmt64 primed.opr.spd) = true ∧ fgt0 (fmt64 primed.opr.spd) = true ∧
      flt (fmul (cvt (normalise 32 primed.opr.cwr).1)
        (fdiv (fdiv (cvt 1200) (fmt64 primed.opr.spd)) (fmt64 primed.opr.itv))) (cvt (2 ^ 32)) = true) := by
  decide +kernel
theorem witness_EmptySymbolHasNoSamples :
    ({ primed with opr := { primed.opr with cwr := 0#32 } } : State).opr.cwr = 0#32 ∧ primed.flt.fault = false ∧
    finite (fmt64 primed.opr.itv) = true ∧ fgt0 (fmt64 primed.opr.itv) = true ∧
    finite (fmt64 primed.opr.spd) = true ∧ fgt0 (fmt64 primed.opr.spd) = true ∧
    finite (samplesPerDit primed.opr.itv primed.opr.spd) = true := by decide +kernel
theorem witness_SremReturnsTheCountdown :
    live.flt.fault = false ∧ live.smp.sInit = true ∧ idle5.flt.fault = false ∧ idle5.smp.sInit = false := by decide
theorem witness_SgetEmitsAndAdvances :
    (idle5.flt.fault = false ∧ idle5.smp.sInit = false) ∧
    ((sampler2 0#32 0#64 0#32 0#32).sInit = true ∧ (sampler2 0#32 0#64 0#32 0#32).rem = 0#32) ∧
    (live.flt.fault = false ∧ live.smp.sInit = true ∧ live.smp.rem ≠ 0#32) := by decide
theorem witness_SampleSequenceDependsOnOperandsOnly :
    primed.flt.fault = false ∧ (withBuf primed [1#8] 0 1 false).flt.fault = false ∧
    primed.opr = (withBuf primed [1#8] 0 1 false).opr := by decide
theorem witness_CmpChecksBeforeWriting :
    idle5.flt.fault = false ∧ idle5.smp.sInit = false ∧
    ({ live with smp := sampler2 0#32 0#64 0#32 0#32 } : State).smp.sInit = true ∧
    ({ live with smp := sampler2 0#32 0#64 0#32 0#32 } : State).smp.rem = 0#32 := by decide
theorem witness_CmpRestoresBufferAndConsumesSampler :
    live.flt.fault = false ∧ live.smp.sInit = true ∧ live.smp.rem ≠ 0#32 ∧ live.buf.rd < live.cfg.capacity := by decide
theorem witness_CmpScoresTheUnreadSamples :
    live.flt.fault = false ∧ live.buf.rd < live.cfg.capacity ∧ live.buf.consistent live.cfg.capacity = true ∧
    live.buf.unreadWritten live.cfg.capacity = true ∧
    live.smp.sInit = true ∧ live.smp.rem ≠ 0#32 := by decide
theorem witness_ScoreIsFiniteAndZeroOnlyForEqualPairs : 2 ^ 48 - 1 < 2 ^ 48 ∧ 1 ≤ 1 ∧ 2 ^ 32 - 1 < 2 ^ 32 := by decide
theorem witness_ClsfOnAnEmptyDictionary : idle5.flt.fault = false ∧ idle5.cfg.dict = [] := by decide

/-- The sampler state a dictionary entry's reset gives, if it completes. -/
def samplerFor (s : State) (j : Nat) : Smp :=
  match s.cfg.dict[j]? with
  | none => s.smp
  | some e =>
    match smpReset s.opr.itv s.opr.spd e.code with
    | .ok g => g
    | .error _ => s.smp

theorem witness_ClsfSelectsTheFirstMinimum :
    searching.flt.fault = false ∧ searching.cfg.dict ≠ [] ∧
    searching.buf.consistent searching.cfg.capacity = true ∧
    searching.buf.unreadWritten searching.cfg.capacity = true ∧
    ∀ j e, searching.cfg.dict[j]? = some e →
      smpReset searching.opr.itv searching.opr.spd e.code = .ok (samplerFor searching j) ∧
        (samplerFor searching j).rem ≠ 0#32 := by
  refine ⟨by decide, by decide, by decide, by decide, ?_⟩
  have key : ∀ c, c = 0xae8#32 ∨ c = 0xaa8#32 →
      (match smpReset searching.opr.itv searching.opr.spd c with
        | .ok g => decide (g.rem ≠ 0#32) | .error _ => false) = true := by
    rintro c (rfl | rfl) <;> decide +kernel
  intro j e he
  have hc : e.code = 0xae8#32 ∨ e.code = 0xaa8#32 := by
    match j, he with
    | 0, he => cases he; exact .inl rfl
    | 1, he => cases he; exact .inr rfl
    | j + 2, he => simp [searching, withOpr, withBuf, State.resetOf, cfgOf, df5] at he
  have h := key e.code hc
  unfold samplerFor
  rw [he]
  dsimp only
  split at h
  next g hg => rw [hg]; exact ⟨rfl, by simpa using h⟩
  next => cases h

/-- A dictionary's first entry raising each cause: no timing; an overflowing budget; the empty symbol. -/
theorem witness_ClsfFaultsAtTheFirstEntry :
    (smpReset 0#64 0#64 1#32 matches .error .badTiming) = true ∧
    (smpReset 0x3df0000000000000#64 0x4092c00000000000#64 1#32 matches .error .countOverflow) = true ∧
    (match smpReset 0x4059000000000000#64 0x4028000000000000#64 0#32 with
      | .ok g => decide (g.rem = 0#32) | .error _ => false) = true := by decide +kernel
theorem witness_ClsfFaultKeepsBufferAndResults :
    ∃ t, (State.resetOf (cfgOf 8 df5)).flt.fault = false ∧ exec .clsf (State.resetOf (cfgOf 8 df5)) = .next t ∧
      t.flt.fault = true := ⟨_, rfl, rfl, by decide⟩

/-- The second entry is the first that gives no samples: its code is the empty symbol. -/
theorem witness_ClsfFaultKeepsBufferAndResults_index :
    [(⟨0xae8#32, 0x46#8⟩ : DictEntry), ⟨0#32, 0x30#8⟩][1]? = some ⟨0#32, 0x30#8⟩ ∧
    searching.flt.fault = false ∧ searching.buf.rd < searching.cfg.capacity ∧
    (match smpReset searching.opr.itv searching.opr.spd 0xae8#32 with
      | .ok g => decide (g.rem ≠ 0#32) | .error _ => false) = true ∧
    (match smpReset searching.opr.itv searching.opr.spd 0#32 with
      | .ok g => decide (g.rem = 0#32) | .error _ => false) = true := by decide +kernel

/-- A state with the invariant, in mid-work. -/
theorem witness_live_inv : live.Inv := by constructor <;> decide
theorem witness_StatReturnsStatusAndFaultRecord : (1#64 ≠ 0#64) ∧ live.Inv ∧ live.flt.fault = false :=
  ⟨by decide, witness_live_inv, rfl⟩
theorem witness_StepKeepsTheInvariant :
    ∃ t, (presented live 0x130000000000000000#72).Inv ∧ step (presented live 0x130000000000000000#72) = .next t :=
  ⟨_, by constructor <;> decide, rfl⟩
theorem witness_ConfigurationNeverChanges :
    ∃ t, step (presented live 0x130000000000000000#72) = .next t := ⟨_, rfl⟩
theorem witness_EveryCommandIsAnswered :
    (presented live 0x130000000000000000#72).Inv ∧
    (presented live 0x130000000000000000#72).host = .command 0x130000000000000000#72 :: [] :=
  ⟨by constructor <;> decide, rfl⟩
theorem witness_OnlyBufferCommandsMoveTheBuffer :
    ∃ t, exec .cmp live = .next t ∧ (∀ v, Instr.cmp ≠ .bwr v) ∧ Instr.cmp ≠ .bclr ∧ Instr.cmp ≠ .brd ∧ Instr.cmp ≠ .bret :=
  ⟨_, rfl, nofun, nofun, nofun, nofun⟩
/-- BRET with a checkpoint: it is none of the three that write one. -/
theorem witness_CheckpointIsWrittenOnlyBySaves :
    ∃ s t, exec .bret s = .next t ∧ s.buf.ckv = true ∧ Instr.bret ≠ .bsave ∧ Instr.bret ≠ .cmp ∧ Instr.bret ≠ .clsf :=
  ⟨{ live with buf := { live.buf with ckv := true } }, _, rfl, rfl, nofun, nofun, nofun⟩
theorem witness_SamplerAndOperandWriters :
    ∃ t, exec .brd live = .next t ∧ live.smp.sInit = true ∧ Instr.brd ≠ .srst ∧ Instr.brd ≠ .sget ∧
      Instr.brd ≠ .cmp ∧ Instr.brd ≠ .clsf ∧ (∀ v, Instr.brd ≠ .ldi v) ∧ (∀ v, Instr.brd ≠ .lds v) ∧
      (∀ c, Instr.brd ≠ .ldc c) := ⟨_, rfl, rfl, nofun, nofun, nofun, nofun, nofun, nofun, nofun⟩
theorem witness_ResultRegisterWriters :
    ∃ t, exec .sget live = .next t ∧ Instr.sget ≠ .cmp ∧ Instr.sget ≠ .clsf := ⟨_, rfl, nofun, nofun⟩
theorem witness_CausesOfEachCommand :
    ∃ t, live.flt.fault = false ∧ exec .bret live = .next t ∧ t.flt.fault = true := ⟨_, rfl, rfl, rfl⟩
theorem witness_FaultsArePrecise :
    ∃ t, live.flt.fault = false ∧ exec .bret live = .next t ∧ t.flt.fault = true ∧ Instr.bret ≠ .clsf :=
  ⟨_, rfl, rfl, rfl, by decide⟩

end Sys2Proof.Tests
end

/-! SUPPORT. What one command, one command word and one step can do, as inversion lemmas: every claim of the form
"if it answers a next state, then .." starts from these. -/

namespace Sys2Proof.Machine

/-- What a live command can do: every way in which `exec i s` answers a next state while `FAULT = 0`, with the
condition that leads there. `exec_next` ties it to `exec`. -/
inductive Completes (s : State) : Instr → State → Prop
  | stat : Completes s .stat (s.respond (resStat s))
  | bclr : Completes s .bclr (State.respond { s with buf := { s.buf with rd := 0, wr := 0, full := false } } 0#64)
  | bwr (v : Sample) (hwr : s.buf.wr < s.cfg.capacity) :
      Completes s (.bwr v) (State.respond { s with buf := s.buf.push s.cfg.capacity v } 0#64)
  | bavl : Completes s .bavl (s.respond (resCount (s.buf.avail s.cfg.capacity)))
  | brd (hr : s.buf.readable s.cfg.capacity = true) :
      Completes s .brd
        (State.respond { s with buf := (s.buf.read s.cfg.capacity).2 } (resSample (s.buf.read s.cfg.capacity).1))
  | bsave : Completes s .bsave (State.respond { s with buf := s.buf.save } 0#64)
  | bret (hv : s.buf.ckv = true) : Completes s .bret (State.respond { s with buf := s.buf.restore } 0#64)
  | bretFault (hv : s.buf.ckv = false) : Completes s .bret (s.raise .noCheckpoint (Instr.opcode .bret) 0)
  | ldi (v : F64) : Completes s (.ldi v) ((s.loadItv v).respond 0#64)
  | lds (v : F64) : Completes s (.lds v) ((s.loadSpd v).respond 0#64)
  | ldc (c : CodeWord) : Completes s (.ldc c) ((s.loadCwr c).respond 0#64)
  | srst (g : Smp) (hg : smpReset s.opr.itv s.opr.spd s.opr.cwr = .ok g) :
      Completes s .srst (State.respond { s with smp := g } (resRem g.rem))
  | srstFault (c : Cause) (hc : smpReset s.opr.itv s.opr.spd s.opr.cwr = .error c) :
      Completes s .srst (s.raise c (Instr.opcode .srst) 0)
  | srem (hi : s.smp.sInit = true) : Completes s .srem (s.respond (resRem s.smp.rem))
  | sremFault (hi : s.smp.sInit = false) : Completes s .srem (s.raise .samplerUninit (Instr.opcode .srem) 0)
  | sget (hi : s.smp.sInit = true) :
      Completes s .sget (State.respond { s with smp := s.smp.get.2 } (resBit s.smp.get.1))
  | sgetFault (hi : s.smp.sInit = false) : Completes s .sget (s.raise .samplerUninit (Instr.opcode .sget) 0)
  | cmp (hi : s.smp.sInit = true) (hz : s.smp.rem ≠ 0#32) (hr : s.buf.readable s.cfg.capacity = true) :
      Completes s .cmp ((runCompare s.clearUndr).2.respond (runCompare s.clearUndr).2.cls.score)
  | cmpUninit (hi : s.smp.sInit = false) : Completes s .cmp (s.raise .samplerUninit (Instr.opcode .cmp) 0)
  | cmpZero (hi : s.smp.sInit = true) (hz : s.smp.rem = 0#32) :
      Completes s .cmp (s.raise .zeroCount (Instr.opcode .cmp) 0)
  | clsf (best : Best) (u : State) (hs : s.searchAll = .completed best u) (hu : SearchFrame s.clearUndr u) :
      Completes s .clsf ((u.storeBest best).respond (resBest (u.storeBest best).cls))
  | clsfFault (c : Cause) (j : Nat) (u : State) (hs : s.searchAll = .raised c j u)
      (hu : SearchFrame s.clearUndr u) : Completes s .clsf (u.raise c (Instr.opcode .clsf) j)
  | rdsc : Completes s .rdsc (s.respond s.cls.score)
  | rdbest : Completes s .rdbest (s.respond (resBest s.cls))
  | rdberr : Completes s .rdberr (s.respond s.cls.besterr)

/-- R173: while `FAULT = 1` every command but STAT is ignored. -/
theorem exec_faulted {i : Instr} {s : State} (hf : s.flt.fault = true) (hi : i ≠ .stat) :
    exec i s = .next (s.respond 0#64) := by
  cases i with
  | stat => exact absurd rfl hi
  | _ => exact whenLive_faulted hf _

/-- What a gated command that answers does once the gate is known to be open. -/
theorem body_of_live {s t : State} {body : Result} (hf : s.flt.fault = false) (h : whenLive s body = .next t) :
    body = .next t := (whenLive_live hf body).symm.trans h

/-- If a live command answers a next state, it is one of those of `Completes`. -/
theorem exec_live {i : Instr} {s t : State} (hf : s.flt.fault = false) (h : exec i s = .next t) :
    Completes s i t := by
  cases i with
  | stat => cases h; exact .stat
  | bclr => cases body_of_live hf h; exact .bclr
  | bavl => cases body_of_live hf h; exact .bavl
  | bsave => cases body_of_live hf h; exact .bsave
  | ldi v => cases body_of_live hf h; exact .ldi v
  | lds v => cases body_of_live hf h; exact .lds v
  | ldc c => cases body_of_live hf h; exact .ldc c
  | rdsc => cases body_of_live hf h; exact .rdsc
  | rdbest => cases body_of_live hf h; exact .rdbest
  | rdberr => cases body_of_live hf h; exact .rdberr
  | bwr v =>
    have h := body_of_live hf h
    split at h
    next hwr => cases h; exact .bwr v hwr
    next => cases h
  | brd =>
    have h := body_of_live hf h
    split at h
    next hr => cases h; exact .brd hr
    next => cases h
  | bret =>
    have h := body_of_live hf h
    split at h
    next hv => cases h; exact .bret hv
    next hv => cases h; exact .bretFault (by simpa using hv)
  | srst =>
    have h := body_of_live hf h
    split at h
    next g hg => cases h; exact .srst g hg
    next c hc => cases h; exact .srstFault c hc
  | srem =>
    have h := body_of_live hf h
    split at h
    next hi => cases h; exact .srem hi
    next hi => cases h; exact .sremFault (by simpa using hi)
  | sget =>
    have h := body_of_live hf h
    split at h
    next hi => cases h; exact .sget hi
    next hi => cases h; exact .sgetFault (by simpa using hi)
  | cmp =>
    have h := body_of_live hf h
    split at h
    next hi => cases h; exact .cmpUninit (by simpa using hi)
    next hi =>
      have hi : s.smp.sInit = true := by simpa using hi
      split at h
      next hz => cases h; exact .cmpZero hi hz
      next hz =>
        split at h
        next hr => cases h; exact .cmp hi hz hr
        next => cases h
  | clsf =>
    obtain ⟨best, u, hs, hu, rfl⟩ | ⟨c, j, u, hs, hu, -, -, -, rfl⟩ := execClsf_next hf h
    · exact .clsf best u hs hu
    · exact .clsfFault c j u hs hu

/-- Everything a command that answers can do: complete in its own way, or only respond while the block is faulted. -/
theorem exec_next {i : Instr} {s t : State} (h : exec i s = .next t) :
    (s.flt.fault = false ∧ Completes s i t) ∨ (s.flt.fault = true ∧ ∃ v, t = s.respond v) := by
  cases hf : s.flt.fault with
  | false => exact .inl ⟨rfl, exec_live hf h⟩
  | true =>
    refine .inr ⟨rfl, ?_⟩
    by_cases hi : i = .stat
    · subst hi
      cases h
      exact ⟨_, rfl⟩
    · cases (exec_faulted hf hi).symm.trans h
      exact ⟨_, rfl⟩

/-- Everything an illegal word can do: respond only, while the block is faulted (R173), or raise its fault (R75). -/
theorem execIllegal_next {w : CommandWord} {s t : State} (h : execIllegal w s = .next t) :
    (s.flt.fault = true ∧ ∃ v, t = s.respond v) ∨
    (s.flt.fault = false ∧ t = s.raise .illegalCommand (opOf w) 0) := by
  unfold execIllegal at h
  split at h
  next hs =>
    have ⟨hf, _⟩ := Bool.and_eq_true_iff.mp hs
    cases h
    exact .inl ⟨hf, _, rfl⟩
  next =>
    obtain ⟨hf, rfl⟩ | ⟨hf, h⟩ := whenLive_next h
    · exact .inl ⟨hf, _, rfl⟩
    · cases h
      exact .inr ⟨hf, rfl⟩

/-- Everything an accepted command word can do (R172, R173, R75). -/
theorem transact_next {w : CommandWord} {s t : State} (h : transact w s = .next t) :
    (s.flt.fault = true ∧ ∃ v, t = s.respond v) ∨
    (s.flt.fault = false ∧ t = s.raise .illegalCommand (opOf w) 0) ∨
    (s.flt.fault = false ∧ ∃ i, decode w = .command i ∧ Completes s i t) := by
  unfold transact at h
  split at h
  next i hi =>
    obtain ⟨hf, hc⟩ | hr := exec_next h
    · exact .inr (.inr ⟨hf, i, hi, hc⟩)
    · exact .inl hr
  next =>
    obtain hr | hr := execIllegal_next h
    · exact .inl hr
    · exact .inr (.inl hr)

/-- Everything a step can do: nothing, a hardware reset, or the transaction of the host's next word. -/
theorem step_next {s t : State} (h : step s = .next t) :
    t = s ∨ (∃ rest, t = State.hwReset { s with host := rest }) ∨
    ∃ w rest, s.host = .command w :: rest ∧ transact w { s with host := rest } = .next t := by
  unfold step at h
  split at h
  next => cases h; exact .inl rfl
  next a rest hh =>
    cases a with
    | reset => cases h; exact .inr (.inl ⟨rest, rfl⟩)
    | command w => exact .inr (.inr ⟨w, rest, hh, h⟩)

/-! ### The configuration never changes -/

theorem Completes.cfg {i : Instr} {s t : State} (h : Completes s i t) : t.cfg = s.cfg := by
  cases h with
  | clsf _ _ _ hu => exact hu.cfg
  | clsfFault _ _ _ _ hu => exact hu.cfg
  | _ => rfl

theorem transact_cfg {w : CommandWord} {s t : State} (h : transact w s = .next t) : t.cfg = s.cfg := by
  obtain ⟨-, v, rfl⟩ | ⟨-, rfl⟩ | ⟨-, i, -, hc⟩ := transact_next h
  · rfl
  · rfl
  · exact hc.cfg

/-- Settles O54: each of the three things a step can do keeps `cfg`, and so does every command. -/
theorem configurationNeverChanges : Obligations.ConfigurationNeverChanges := by
  unfold Obligations.ConfigurationNeverChanges
  intro s t h
  obtain rfl | ⟨rest, rfl⟩ | ⟨w, rest, -, h⟩ := step_next h
  · rfl
  · rfl
  · have hcfg := transact_cfg h
    exact hcfg

end Sys2Proof.Machine

/-! SUPPORT. The unread count (R103, R110) by its three branches. -/

namespace Sys2Proof.Machine

theorem Buf.empty_iff (b : Buf) : b.empty = true ↔ b.rd = b.wr ∧ b.full = false := by
  simp [Buf.empty]

theorem Buf.avail_of_full {b : Buf} (h : b.full = true) (n : Nat) : b.avail n = n := by
  simp [Buf.avail, h]

theorem Buf.avail_of_not_full {b : Buf} (h : b.full = false) (n : Nat) :
    b.avail n = if b.rd ≤ b.wr then b.wr - b.rd else n - b.rd + b.wr := by
  simp [Buf.avail, h]

/-- A buffer that is not full holds fewer than `N` unread samples. -/
theorem Buf.avail_lt {n : Nat} {b : Buf} (hr : b.rd < n) (hw : b.wr < n) (h : b.full = false) : b.avail n < n := by
  rw [Buf.avail_of_not_full h]
  split <;> omega

theorem Buf.avail_le {n : Nat} {b : Buf} (hr : b.rd < n) (hw : b.wr < n) : b.avail n ≤ n := by
  cases h : b.full with
  | true => rw [Buf.avail_of_full h]
  | false => exact (Buf.avail_lt hr hw h).le

theorem Buf.avail_eq_zero_iff {n : Nat} {b : Buf} (hr : b.rd < n) : b.avail n = 0 ↔ b.empty = true := by
  rw [Buf.empty_iff]
  cases h : b.full with
  | true => simp only [Buf.avail_of_full h, Bool.true_eq_false, and_false, iff_false]; omega
  | false =>
    rw [Buf.avail_of_not_full h]
    simp only [and_true]
    split <;> omega

/-- Settles O17: the count by its branches, the widths by `ceilLog2_le_iff`. -/
theorem unreadCountIsBounded : Obligations.UnreadCountIsBounded := by
  unfold Obligations.UnreadCountIsBounded
  refine ⟨ceilLog2_le_iff, fun n b hr hw => ?_⟩
  have full_of_eq (h : b.avail n = n) : b.full = true := by
    by_contra hf
    exact (Buf.avail_lt hr hw (by simpa using hf)).ne h
  exact ⟨Buf.avail_le hr hw, full_of_eq, Buf.avail_eq_zero_iff hr, rfl, rfl,
    lt_two_pow_cursorWidth hr, lt_two_pow_cursorWidth hw, lt_two_pow_countWidth (Buf.avail_le hr hw)⟩

end Sys2Proof.Machine

/-! SUPPORT. The binary64 values the sampler and the score stay within: conversion below `2^53` is exact, and the
quotients of R123 and R151 are neither negative nor a NaN. -/

namespace Sys2Proof.Machine

theorem Fp.unit_mul_ne_zero {i : Nat} (h : i ≠ 0) : Fp.unit * i ≠ 0 := Nat.mul_ne_zero Fp.unit_pos.ne' h

/-- An exact quotient needs no rounding. -/
theorem roundEven_of_dvd {n d : Nat} (hd : 0 < d) (h : d ∣ n) : roundEven n d = n / d := by
  simp [roundEven, Nat.mod_eq_zero_of_dvd h, hd]

/-- A number that is a multiple of the last place of its 53 bits is kept by rounding. -/
theorem roundMag_of_dvd {n : Nat} (h : 2 ^ (Nat.log2 n - 52) ∣ n) : roundMag n 1 = n := by
  simp only [roundMag, Nat.div_one, Nat.one_mul]
  rw [roundEven_of_dvd (Nat.two_pow_pos _) h, Nat.div_mul_cancel h]

theorem two_pow_mul_lt (k : Nat) {i : Nat} (h : i < 2 ^ 53) : 2 ^ k * i < 2 ^ (k + 53) := by
  rw [Nat.pow_add]
  exact Nat.mul_lt_mul_of_pos_left h (Nat.two_pow_pos k)

/-- Numbers of at most 53 bits before their trailing zeros are kept by rounding. -/
theorem roundMag_two_pow_mul (k : Nat) {i : Nat} (h : i < 2 ^ 53) : roundMag (2 ^ k * i) 1 = 2 ^ k * i := by
  apply roundMag_of_dvd
  rcases Nat.eq_zero_or_pos i with rfl | hi
  · exact dvd_zero _
  have hlog := (Nat.log2_lt (Nat.mul_pos (Nat.two_pow_pos k) hi).ne').2 (two_pow_mul_lt k h)
  exact (Nat.pow_dvd_pow 2 (by omega : Nat.log2 (2 ^ k * i) - 52 ≤ k)).mul_right i

/-- A product of `2^k` and a number of 53 bits is below `2^1024`, in units, for every `k` up to 2045. -/
theorem two_pow_mul_lt_limit {k i : Nat} (hk : k ≤ 2045) (h : i < 2 ^ 53) : 2 ^ k * i < Fp.limit := by
  rw [Fp.limit_eq]
  exact (two_pow_mul_lt k h).trans_le (Nat.pow_le_pow_right Nat.two_pos (Nat.add_le_add_right hk 53))

/-- The unit is a power of two; that its exponent is small enough is all that exactness needs, and leaves the numeral
out of sight. -/
theorem Fp.unit_eq_two_pow : ∃ k, k ≤ 2045 ∧ Fp.unit = 2 ^ k := ⟨1074, by decide, by unfold Fp.unit; rfl⟩

/-- `cvt(i)` is exact below `2^53` (R17). -/
theorem cvt_of_lt {i : Nat} (h : i < 2 ^ 53) : cvt i = .fin false (Fp.unit * i) := by
  obtain ⟨k, hk, hu⟩ := Fp.unit_eq_two_pow
  simp [cvt, Fp.round, hu, roundMag_two_pow_mul k h, two_pow_mul_lt_limit hk h]

/-- A valid timing operand is a finite positive value (R123). -/
theorem validTiming_iff (a : Fp) : validTiming a = true ↔ ∃ m, m ≠ 0 ∧ a = .fin false m := by
  cases a with
  | nan => simp [validTiming, finite]
  | inf neg => simp [validTiming, finite]
  | fin neg m =>
    cases neg with
    | true => simp [validTiming, finite, fgt0, flt, Fp.signed]
    | false => simp [validTiming, finite, fgt0, flt, Fp.signed, Nat.pos_iff_ne_zero]

theorem samplesPerDit_nonneg {itv spd : F64} (hi : validTiming (fmt64 itv) = true)
    (hs : validTiming (fmt64 spd) = true) : (samplesPerDit itv spd).Nonneg := by
  obtain ⟨m, hm, hi⟩ := (validTiming_iff _).mp hi
  obtain ⟨k, hk, hs⟩ := (validTiming_iff _).mp hs
  rw [samplesPerDit, hi, hs]
  exact ((Fp.Nonneg.cvt 1200).fdiv hk).fdiv hm

/-- `1.0 / a` for `a` in `+0 .. +inf`, both ends included. -/
theorem Fp.Nonneg.reciprocal {a : Fp} (ha : a.Nonneg) : (Machine.fdiv (Machine.cvt 1) a).Nonneg := by
  rcases ha with rfl | ⟨m, -, rfl⟩
  · rw [cvt_of_lt (by decide)]
    exact .fin Fp.limit_pos
  · by_cases hm : m = 0
    · rw [cvt_of_lt (by decide), hm]
      simp only [Machine.fdiv, Fp.unit_mul_ne_zero Nat.one_ne_zero, if_true, if_false]
      exact .inf
    · exact (Fp.Nonneg.cvt 1).fdiv hm

/-- A score over at least one pair is neither negative nor a NaN (R150 (d)). -/
theorem scoreOf_nonneg (sum : Nat) {count : Nat} (h0 : count ≠ 0) (h : count < 2 ^ 53) :
    (scoreOf sum count).Nonneg := by
  rw [scoreOf, cvt_of_lt h]
  exact (Fp.Nonneg.cvt sum).fsqrt.fdiv (Fp.unit_mul_ne_zero h0)

end Sys2Proof.Machine

/-! SUPPORT. The invariant cut along the groups of the state, and kept by every operation on each group. -/

namespace Sys2Proof.Machine

/-- The clauses of `State.Inv` about the buffer of `n` cells. -/
structure Buf.Inv (n : Nat) (b : Buf) : Prop where
  rd_lt : b.rd < n
  wr_lt : b.wr < n
  ckRd_lt : b.ckRd < n
  store_wf : Memory.wf b.store = true
  store_within : Memory.within n b.store = true

/-- The clauses about the sampler. -/
structure Smp.Inv (g : Smp) : Prop where
  wlen_le : g.wlen ≤ 32
  spdit_ok : nonnegPattern g.spdit = true
  dps_ok : nonnegPattern g.dps = true
  fracAcc_ok : nonnegPattern g.fracAcc = true
  counters_lt : g.intAcc.toNat + g.rem.toNat < 2 ^ 32

/-- The clauses about the result registers. -/
structure Results.Inv (r : Results) : Prop where
  score_ok : nonnegPattern r.score = true
  besterr_ok : nonnegPattern r.besterr = true
  best_zero : r.bestv = false → r.bestidx = 0#16 ∧ r.bestsym = 0#8 ∧ r.besterr = 0#64

/-- The clauses about the fault registers. -/
structure FaultRegs.Inv (f : FaultRegs) : Prop where
  record_zero : f.fault = false → f.cause = 0#4 ∧ f.fop = 0#8 ∧ f.fidx = 0#16
  cause_known : f.fault = true → 1 ≤ f.cause.toNat ∧ f.cause.toNat ≤ 6

/-- The invariant speaks of each group by itself; that the cursors fit their bits follows from their range. -/
theorem State.inv_iff (s : State) :
    s.Inv ↔ s.buf.Inv s.cfg.capacity ∧ s.smp.Inv ∧ s.cls.Inv ∧ s.flt.Inv := by
  constructor
  · intro h
    exact ⟨⟨h.rd_lt, h.wr_lt, h.ckRd_lt, h.store_wf, h.store_within⟩,
      ⟨h.wlen_le, h.spdit_ok, h.dps_ok, h.fracAcc_ok, h.counters_lt⟩,
      ⟨h.score_ok, h.besterr_ok, h.best_zero⟩, ⟨h.record_zero, h.cause_known⟩⟩
  · rintro ⟨hb, hg, hr, hf⟩
    exact {
      rd_lt := hb.rd_lt
      wr_lt := hb.wr_lt
      ckRd_lt := hb.ckRd_lt
      rd_bits := lt_two_pow_cursorWidth hb.rd_lt
      wr_bits := lt_two_pow_cursorWidth hb.wr_lt
      ckRd_bits := lt_two_pow_cursorWidth hb.ckRd_lt
      store_wf := hb.store_wf
      store_within := hb.store_within
      wlen_le := hg.wlen_le
      spdit_ok := hg.spdit_ok
      dps_ok := hg.dps_ok
      fracAcc_ok := hg.fracAcc_ok
      counters_lt := hg.counters_lt
      score_ok := hr.score_ok
      besterr_ok := hr.besterr_ok
      best_zero := hr.best_zero
      record_zero := hf.record_zero
      cause_known := hf.cause_known }

/-! ### The buffer -/

theorem Buf.Inv.capacity_pos {n : Nat} {b : Buf} (h : b.Inv n) : 0 < n := Nat.zero_lt_of_lt h.rd_lt

theorem Buf.Inv.clear {n : Nat} {b : Buf} (h : b.Inv n) :
    Buf.Inv n { b with rd := 0, wr := 0, full := false } :=
  ⟨h.capacity_pos, h.capacity_pos, h.ckRd_lt, h.store_wf, h.store_within⟩

theorem Buf.Inv.push {n : Nat} {b : Buf} (h : b.Inv n) (v : Sample) : (b.push n v).Inv n where
  rd_lt := by
    rw [Buf.push_rd]
    split
    · exact advance_lt h.capacity_pos _
    · exact h.rd_lt
  wr_lt := advance_lt h.capacity_pos _
  ckRd_lt := h.ckRd_lt
  store_wf := Memory.wf_write h.store_wf
  store_within := Memory.within_write h.wr_lt h.store_within

theorem Buf.Inv.read {n : Nat} {b : Buf} (h : b.Inv n) : (b.read n).2.Inv n where
  rd_lt := Buf.read_rd_lt h.capacity_pos h.rd_lt
  wr_lt := by rw [Buf.read_wr]; exact h.wr_lt
  ckRd_lt := by rw [Buf.read_ckRd]; exact h.ckRd_lt
  store_wf := by rw [Buf.read_store]; exact h.store_wf
  store_within := by rw [Buf.read_store]; exact h.store_within

theorem Buf.Inv.save {n : Nat} {b : Buf} (h : b.Inv n) : b.save.Inv n :=
  ⟨h.rd_lt, h.wr_lt, h.rd_lt, h.store_wf, h.store_within⟩

theorem Buf.Inv.restore {n : Nat} {b : Buf} (h : b.Inv n) : b.restore.Inv n :=
  ⟨h.ckRd_lt, h.wr_lt, h.ckRd_lt, h.store_wf, h.store_within⟩

/-! ### The sampler -/

theorem normalise_len_le (l : Nat) (c : CodeWord) : (normalise l c).1 ≤ l := by
  induction l generalizing c with
  | zero => exact Nat.le_refl 0
  | succ l ih =>
    rw [normalise]
    split
    · exact Nat.le_refl _
    · exact (ih _).trans (Nat.le_succ l)

theorem smpReset_inv {itv spd : F64} {code : CodeWord} {g : Smp} (h : smpReset itv spd code = .ok g) : g.Inv := by
  obtain ⟨hi, hs, -, -, hlen, -, -, hfrac, hint, hspdit, hdps⟩ := smpReset_ok h
  have hn := samplesPerDit_nonneg hi hs
  exact {
    wlen_le := hlen ▸ normalise_len_le 32 code
    spdit_ok := hspdit ▸ hn.pattern _
    dps_ok := hdps ▸ hn.reciprocal.pattern _
    fracAcc_ok := by rw [hfrac]; decide
    counters_lt := by rw [hint]; have := g.rem.isLt; simpa using this }

/-- What a call that emits does to the accumulators (R125). -/
theorem Smp.get_fracAcc {g : Smp} (h : g.rem ≠ 0#32) :
    g.get.2.fracAcc = bits64 (Config.freeNan g.fracAcc g.dps) g.nextFrac := by simp [Smp.get, h]

theorem Smp.get_intAcc {g : Smp} (h : g.rem ≠ 0#32) :
    g.get.2.intAcc = if g.carry then g.intAcc + 1#32 else g.intAcc := by simp [Smp.get, h]

/-- The integer accumulator grows by at most one in a call (R128). -/
theorem Smp.get_intAcc_toNat_le {g : Smp} (h : g.rem ≠ 0#32) : g.get.2.intAcc.toNat ≤ g.intAcc.toNat + 1 := by
  rw [Smp.get_intAcc h]
  split
  · rw [BitVec.toNat_add]; exact Nat.mod_le _ _
  · exact Nat.le_succ _

theorem Smp.rem_toNat_ne_zero {g : Smp} (h : g.rem ≠ 0#32) : g.rem.toNat ≠ 0 :=
  fun h0 => h (BitVec.eq_of_toNat_eq h0)

theorem Smp.Inv.get {g : Smp} (h : g.Inv) : g.get.2.Inv := by
  by_cases hz : g.rem = 0#32
  · rw [Smp.get_of_exhausted hz]
    exact h
  · exact {
      wlen_le := by rw [Smp.get_wlen]; exact h.wlen_le
      spdit_ok := by rw [Smp.get_spdit]; exact h.spdit_ok
      dps_ok := by rw [Smp.get_dps]; exact h.dps_ok
      fracAcc_ok := by
        rw [Smp.get_fracAcc hz]
        exact ((fmt64_nonneg h.fracAcc_ok).fadd (fmt64_nonneg h.dps_ok)).pattern _
      counters_lt := by
        have hint := Smp.get_intAcc_toNat_le hz
        have hrem := Smp.get_rem_toNat g
        have hpos := Smp.rem_toNat_ne_zero hz
        have hsum := h.counters_lt
        omega }

theorem Smp.Inv.after {g : Smp} (h : g.Inv) (k : Nat) : (Smp.after k g).Inv := by
  induction k generalizing g with
  | zero => exact h
  | succ k ih => exact ih h.get

/-! ### Results and fault record -/

theorem Results.Inv.setScore {r : Results} (h : r.Inv) {score : F64} (hs : nonnegPattern score = true)
    (undr : Bool) : Results.Inv { r with score := score, undr := undr } :=
  ⟨hs, h.besterr_ok, h.best_zero⟩

theorem Cause.code_range (c : Cause) : 1 ≤ c.code.toNat ∧ c.code.toNat ≤ 6 := by cases c <;> decide

theorem FaultRegs.Inv.recorded (c : Cause) (op : Opcode) (i : BitVec 16) :
    FaultRegs.Inv { fault := true, cause := c.code, fop := op, fidx := i } :=
  ⟨nofun, fun _ => c.code_range⟩

/-! ### State updates -/

theorem State.Inv.buf_inv {s : State} (h : s.Inv) : s.buf.Inv s.cfg.capacity := ((State.inv_iff s).mp h).1

theorem State.Inv.smp_inv {s : State} (h : s.Inv) : s.smp.Inv := ((State.inv_iff s).mp h).2.1

theorem State.Inv.cls_inv {s : State} (h : s.Inv) : s.cls.Inv := ((State.inv_iff s).mp h).2.2.1

theorem State.Inv.flt_inv {s : State} (h : s.Inv) : s.flt.Inv := ((State.inv_iff s).mp h).2.2.2

theorem State.Inv.setBuf {s : State} (h : s.Inv) {b : Buf} (hb : b.Inv s.cfg.capacity) :
    State.Inv { s with buf := b } :=
  (State.inv_iff _).mpr ⟨hb, h.smp_inv, h.cls_inv, h.flt_inv⟩

theorem State.Inv.setSmp {s : State} (h : s.Inv) {g : Smp} (hg : g.Inv) : State.Inv { s with smp := g } :=
  (State.inv_iff _).mpr ⟨h.buf_inv, hg, h.cls_inv, h.flt_inv⟩

theorem State.Inv.setCls {s : State} (h : s.Inv) {r : Results} (hr : r.Inv) : State.Inv { s with cls := r } :=
  (State.inv_iff _).mpr ⟨h.buf_inv, h.smp_inv, hr, h.flt_inv⟩

/-- The invariant says nothing of the operand registers, the response and the host's list. -/
theorem State.Inv.setOthers {s : State} (h : s.Inv) (opr : Operands) (rsp : Option Response)
    (host : List HostAction) : State.Inv { s with opr := opr, rsp := rsp, host := host } :=
  (State.inv_iff _).mpr ⟨h.buf_inv, h.smp_inv, h.cls_inv, h.flt_inv⟩

theorem State.Inv.respond {s : State} (h : s.Inv) (v : Response) : (s.respond v).Inv := h.setOthers _ _ _

theorem State.Inv.raise {s : State} (h : s.Inv) (c : Cause) (op : Opcode) (i : Nat) : (s.raise c op i).Inv :=
  (State.inv_iff _).mpr ⟨h.buf_inv, h.smp_inv, h.cls_inv, .recorded c op _⟩

theorem State.Inv.clearUndr {s : State} (h : s.Inv) : s.clearUndr.Inv :=
  h.setCls (h.cls_inv.setScore h.score_ok false)

theorem Buf.resetOf_inv (cfg : Config) (draws : Nat) :
    Buf.Inv cfg.capacity { (State.resetOf cfg).buf with draws := draws } :=
  ⟨cfg.capacity_pos, cfg.capacity_pos, cfg.capacity_pos, rfl, rfl⟩

theorem State.resetOf_inv (cfg : Config) : (State.resetOf cfg).Inv :=
  (State.inv_iff _).mpr
    ⟨Buf.resetOf_inv cfg 0,
      ⟨Nat.zero_le _, rfl, rfl, rfl, by simp [State.resetOf]⟩,
      ⟨rfl, rfl, fun _ => ⟨rfl, rfl, rfl⟩⟩,
      ⟨fun _ => ⟨rfl, rfl, rfl⟩, nofun⟩⟩

theorem State.hwReset_inv (s : State) : s.hwReset.Inv :=
  ((State.resetOf_inv s.cfg).setBuf (Buf.resetOf_inv s.cfg s.buf.draws)).setOthers _ _ _

/-! ### The compare -/

theorem runCompare_fst_nonneg {s : State} (hz : s.smp.rem ≠ 0#32) : (runCompare s).1.Nonneg :=
  scoreOf_nonneg _ (Smp.rem_toNat_ne_zero hz) (s.smp.rem.isLt.trans (by decide))

theorem State.Inv.runCompare {s : State} (h : s.Inv) (hz : s.smp.rem ≠ 0#32) : (runCompare s).2.Inv := by
  obtain ⟨d, he⟩ := runCompare_eq s
  have hb := h.buf_inv
  rw [he]
  exact (State.inv_iff _).mpr
    ⟨⟨hb.rd_lt, hb.wr_lt, hb.rd_lt, hb.store_wf, hb.store_within⟩, h.smp_inv.after _,
      h.cls_inv.setScore ((runCompare_fst_nonneg hz).pattern _) _, h.flt_inv⟩

/-! ### The search -/

/-- The running minimum holds a value with a pattern, and zeros while no entry is selected. -/
structure Best.Inv (best : Best) : Prop where
  min_nonneg : best.min.Nonneg
  unselected : best.bv = false → best.bi = 0 ∧ best.bs = 0#8

theorem Best.start_inv : Best.start.Inv := ⟨.inf, fun _ => ⟨rfl, rfl⟩⟩

theorem Best.Inv.offer {best : Best} (h : best.Inv) {score : Fp} (hs : score.Nonneg) (i : Nat) (sym : BitVec 8) :
    (best.offer score i sym).Inv := by
  unfold Best.offer
  split
  · exact ⟨hs, nofun⟩
  · exact h

theorem Best.Inv.storeBest {s : State} {best : Best} (hb : best.Inv) (h : s.Inv) : (s.storeBest best).Inv := by
  refine h.setCls ⟨h.score_ok, ?_, fun hv => ?_⟩
  · dsimp only
    split
    · exact hb.min_nonneg.pattern _
    · decide
  · dsimp only at hv ⊢
    obtain ⟨hi, hs⟩ := hb.unselected hv
    simp [hv, hi, hs]

/-- The state a search ends with meets the invariant, and so does its running minimum. -/
def SearchEnd.Inv : SearchEnd → Prop
  | .completed best t => best.Inv ∧ t.Inv
  | .raised _ _ t => t.Inv
  | .outside _ => True

theorem search_inv (es : List DictEntry) (i : Nat) {best : Best} {s : State} (hb : best.Inv) (h : s.Inv) :
    (search es i best s).Inv := by
  induction es generalizing i best s with
  | nil => exact ⟨hb, h⟩
  | cons e es ih =>
    obtain ⟨c, -, he⟩ | ⟨g, hg, ⟨-, he⟩ | ⟨-, -, he⟩ | ⟨hz, -, he⟩⟩ := search_cons e es i best s
    · rw [he]; exact h
    · rw [he]; exact h.setSmp (smpReset_inv hg)
    · rw [he]; exact trivial
    · rw [he]
      exact ih _ (hb.offer (runCompare_fst_nonneg hz) _ _) ((h.setSmp (smpReset_inv hg)).runCompare hz)

theorem State.Inv.searchAll {s : State} (h : s.Inv) : s.searchAll.Inv :=
  search_inv _ _ Best.start_inv h.clearUndr

/-! ### Every command, every step -/

theorem Completes.inv {i : Instr} {s t : State} (hc : Completes s i t) (h : s.Inv) : t.Inv := by
  cases hc with
  | stat | bavl | srem | rdsc | rdbest | rdberr => exact h.respond _
  | bretFault | srstFault | sremFault | sgetFault | cmpUninit | cmpZero => exact h.raise ..
  | ldi | lds | ldc => exact h.setOthers ..
  | bclr => exact (h.setBuf h.buf_inv.clear).respond _
  | bwr v => exact (h.setBuf (h.buf_inv.push v)).respond _
  | brd => exact (h.setBuf h.buf_inv.read).respond _
  | bsave => exact (h.setBuf h.buf_inv.save).respond _
  | bret => exact (h.setBuf h.buf_inv.restore).respond _
  | srst g hg => exact (h.setSmp (smpReset_inv hg)).respond _
  | sget => exact (h.setSmp h.smp_inv.get).respond _
  | cmp _ hz => exact (h.clearUndr.runCompare hz).respond _
  | clsf best u hs =>
    have ⟨hb, hu⟩ : SearchEnd.Inv (.completed best u) := hs ▸ h.searchAll
    exact (hb.storeBest hu).respond _
  | clsfFault c j u hs =>
    have hu : SearchEnd.Inv (.raised c j u) := hs ▸ h.searchAll
    exact State.Inv.raise hu ..

theorem transact_inv {w : CommandWord} {s t : State} (h : s.Inv) (ht : transact w s = .next t) : t.Inv := by
  obtain ⟨-, v, rfl⟩ | ⟨-, rfl⟩ | ⟨-, i, -, hc⟩ := transact_next ht
  · exact h.respond v
  · exact h.raise ..
  · exact hc.inv h

/-- Settles O52: idleness keeps the state, a reset meets the invariant from anywhere, and every command word keeps
it, since each operation keeps the clauses of the groups it writes. -/
theorem stepKeepsTheInvariant : Obligations.StepKeepsTheInvariant := by
  unfold Obligations.StepKeepsTheInvariant
  intro s t h ht
  obtain rfl | ⟨rest, rfl⟩ | ⟨w, rest, -, ht⟩ := step_next ht
  · exact h
  · exact State.hwReset_inv _
  · exact transact_inv (h.setOthers _ _ rest) ht

end Sys2Proof.Machine

/-! SUPPORT. Which command writes which group of the state (R23 to R31): one frame lemma per group over `Completes`,
and what the whole search of CLSF keeps. -/

namespace Sys2Proof.Machine

/-! ### What a compare and the search keep -/

/-- A compare stays within the search frame. -/
theorem runCompare_searchFrame (s : State) : SearchFrame s (runCompare s).2 := runCompare_frame s s.smp

theorem runCompare_ckv (s : State) : (runCompare s).2.buf.ckv = true := by
  obtain ⟨d, h⟩ := runCompare_buf s
  rw [h]

/-- The state that a search leaves, if it leaves one, satisfies `P`. -/
def SearchEnd.Leaves (P : State → Prop) : SearchEnd → Prop
  | .completed _ t => P t
  | .raised _ _ t => P t
  | .outside _ => True

/-- What sampler resets and compares keep, the search keeps. -/
theorem search_leaves {P : State → Prop}
    (reset : ∀ (u : State) (code : CodeWord) (g : Smp),
      smpReset u.opr.itv u.opr.spd code = .ok g → P u → P { u with smp := g })
    (compare : ∀ u, P u → P (runCompare u).2)
    (es : List DictEntry) (i : Nat) (best : Best) {s : State} (h : P s) : (search es i best s).Leaves P := by
  induction es generalizing i best s with
  | nil => exact h
  | cons e es ih =>
    obtain ⟨c, -, he⟩ | ⟨g, hg, ⟨-, he⟩ | ⟨-, -, he⟩ | ⟨-, -, he⟩⟩ := search_cons e es i best s
    · rw [he]; exact h
    · rw [he]; exact reset s _ g hg h
    · rw [he]; exact trivial
    · rw [he]; exact ih _ _ (compare _ (reset s _ g hg h))

/-- The search keeps a valid checkpoint (R205). -/
theorem State.searchAll_ckv {s : State} (h : s.buf.ckv = true) : s.searchAll.Leaves (·.buf.ckv = true) :=
  search_leaves (fun _ _ _ _ hu => hu) (fun u _ => runCompare_ckv u) _ _ _ h

/-- The search keeps an initialised sampler (R29). -/
theorem State.searchAll_sInit {s : State} (h : s.smp.sInit = true) : s.searchAll.Leaves (·.smp.sInit = true) := by
  refine search_leaves (fun u code g hg _ => ?_) (fun u hu => ?_) _ _ _ h
  · obtain ⟨-, -, -, hi, -⟩ := smpReset_ok hg
    exact hi
  · rw [runCompare_sInit]
    exact hu

section Writers

variable {i : Instr} {s t : State}

/-! ### The buffer -/

/-- Only BWR writes a cell (R23). -/
theorem Completes.store (h : Completes s i t) (hw : ∀ v, i ≠ .bwr v) : t.buf.store = s.buf.store := by
  cases h with
  | bwr v => exact absurd rfl (hw v)
  | brd => exact Buf.read_store ..
  | cmp => exact (runCompare_searchFrame s.clearUndr).store
  | clsf _ _ _ hu | clsfFault _ _ _ _ hu => exact hu.store
  | _ => rfl

/-- Only BWR and BCLR move the write cursor (R24). -/
theorem Completes.wr (h : Completes s i t) (hw : ∀ v, i ≠ .bwr v) (hc : i ≠ .bclr) : t.buf.wr = s.buf.wr := by
  cases h with
  | bwr v => exact absurd rfl (hw v)
  | bclr => exact absurd rfl hc
  | brd => exact Buf.read_wr ..
  | cmp => exact (runCompare_searchFrame s.clearUndr).wr
  | clsf _ _ _ hu | clsfFault _ _ _ _ hu => exact hu.wr
  | _ => rfl

/-- Only BWR, BCLR, BRD and BRET move the read point for good (R24, R25). -/
theorem Completes.readPoint (h : Completes s i t) (hw : ∀ v, i ≠ .bwr v) (hc : i ≠ .bclr) (hr : i ≠ .brd)
    (hb : i ≠ .bret) : t.buf.rd = s.buf.rd ∧ t.buf.full = s.buf.full := by
  cases h with
  | bwr v => exact absurd rfl (hw v)
  | bclr => exact absurd rfl hc
  | brd => exact absurd rfl hr
  | bret | bretFault => exact absurd rfl hb
  | cmp =>
    have hf := runCompare_searchFrame s.clearUndr
    exact ⟨hf.rd, hf.full⟩
  | clsf _ _ _ hu | clsfFault _ _ _ _ hu => exact ⟨hu.rd, hu.full⟩
  | _ => exact ⟨rfl, rfl⟩

/-! ### The checkpoint -/

/-- No command clears the checkpoint's valid bit (R205). -/
theorem Completes.ckv (h : Completes s i t) (hv : s.buf.ckv = true) : t.buf.ckv = true := by
  cases h with
  | bsave => rfl
  | brd => exact (Buf.read_ckv ..).trans hv
  | cmp => exact runCompare_ckv _
  | clsf best u hs =>
    have hu : SearchEnd.Leaves (·.buf.ckv = true) (.completed best u) := hs ▸ State.searchAll_ckv hv
    exact hu
  | clsfFault c j u hs =>
    have hu : SearchEnd.Leaves (·.buf.ckv = true) (.raised c j u) := hs ▸ State.searchAll_ckv hv
    exact hu
  | _ => exact hv

/-- Only BSAVE, CMP and CLSF write the checkpoint (R26). -/
theorem Completes.checkpoint (h : Completes s i t) (hb : i ≠ .bsave) (hc : i ≠ .cmp) (hl : i ≠ .clsf) :
    t.buf.ckRd = s.buf.ckRd ∧ t.buf.ckFull = s.buf.ckFull ∧ t.buf.ckv = s.buf.ckv := by
  cases h with
  | bsave => exact absurd rfl hb
  | cmp | cmpUninit | cmpZero => exact absurd rfl hc
  | clsf | clsfFault => exact absurd rfl hl
  | brd => exact ⟨Buf.read_ckRd .., Buf.read_ckFull .., Buf.read_ckv ..⟩
  | _ => exact ⟨rfl, rfl, rfl⟩

/-! ### The sampler and the operand registers -/

/-- Only SRST, SGET, CMP and CLSF write the sampler (R28). -/
theorem Completes.smp (h : Completes s i t) (hr : i ≠ .srst) (hg : i ≠ .sget) (hc : i ≠ .cmp) (hl : i ≠ .clsf) :
    t.smp = s.smp := by
  cases h with
  | srst | srstFault => exact absurd rfl hr
  | sget | sgetFault => exact absurd rfl hg
  | cmp | cmpUninit | cmpZero => exact absurd rfl hc
  | clsf | clsfFault => exact absurd rfl hl
  | _ => rfl

/-- No command makes the sampler uninitialised (R29). -/
theorem Completes.sInit (h : Completes s i t) (hi : s.smp.sInit = true) : t.smp.sInit = true := by
  cases h with
  | srst g hg =>
    obtain ⟨-, -, -, hgi, -⟩ := smpReset_ok hg
    exact hgi
  | sget => exact (Smp.get_sInit _).trans hi
  | cmp => exact (runCompare_sInit _).trans hi
  | clsf best u hs =>
    have hu : SearchEnd.Leaves (·.smp.sInit = true) (.completed best u) := hs ▸ State.searchAll_sInit hi
    exact hu
  | clsfFault c j u hs =>
    have hu : SearchEnd.Leaves (·.smp.sInit = true) (.raised c j u) := hs ▸ State.searchAll_sInit hi
    exact hu
  | _ => exact hi

/-- Each operand register is written by its own load only (R30). -/
theorem Completes.opr (h : Completes s i t) :
    ((∀ v, i ≠ .ldi v) → t.opr.itv = s.opr.itv) ∧
    ((∀ v, i ≠ .lds v) → t.opr.spd = s.opr.spd) ∧
    ((∀ c, i ≠ .ldc c) → t.opr.cwr = s.opr.cwr) := by
  cases h with
  | ldi v => exact ⟨fun hi => absurd rfl (hi v), fun _ => rfl, fun _ => rfl⟩
  | lds v => exact ⟨fun _ => rfl, fun hi => absurd rfl (hi v), fun _ => rfl⟩
  | ldc c => exact ⟨fun _ => rfl, fun _ => rfl, fun hi => absurd rfl (hi c)⟩
  | clsf _ _ _ hu | clsfFault _ _ _ _ hu =>
    exact ⟨fun _ => congrArg Operands.itv hu.opr, fun _ => congrArg Operands.spd hu.opr,
      fun _ => congrArg Operands.cwr hu.opr⟩
  | _ => exact ⟨fun _ => rfl, fun _ => rfl, fun _ => rfl⟩

/-! ### The result registers -/

/-- Only CMP and CLSF write the result registers (R31). -/
theorem Completes.cls (h : Completes s i t) (hc : i ≠ .cmp) (hl : i ≠ .clsf) : t.cls = s.cls := by
  cases h with
  | cmp | cmpUninit | cmpZero => exact absurd rfl hc
  | clsf | clsfFault => exact absurd rfl hl
  | _ => rfl

/-- Only CLSF writes the best-entry registers (R31). -/
theorem Completes.best (h : Completes s i t) (hl : i ≠ .clsf) :
    t.cls.bestv = s.cls.bestv ∧ t.cls.bestidx = s.cls.bestidx ∧
    t.cls.bestsym = s.cls.bestsym ∧ t.cls.besterr = s.cls.besterr := by
  cases h with
  | clsf | clsfFault => exact absurd rfl hl
  | _ => exact ⟨rfl, rfl, rfl, rfl⟩

end Writers

/-! ### The statements: the frame lemmas for a live command; a faulted block only responds (R173) -/

/-- Settles O55: a frame lemma for the cells, for the write cursor and for the read point. -/
theorem onlyBufferCommandsMoveTheBuffer : Obligations.OnlyBufferCommandsMoveTheBuffer := by
  unfold Obligations.OnlyBufferCommandsMoveTheBuffer
  intro i s t h
  obtain ⟨-, hc⟩ | ⟨-, v, rfl⟩ := exec_next h
  · exact ⟨hc.store, hc.wr, hc.readPoint⟩
  · exact ⟨fun _ => rfl, fun _ _ => rfl, fun _ _ _ _ => ⟨rfl, rfl⟩⟩

/-- Settles O56: the valid bit is kept by every command, the checkpoint by all but its three writers. -/
theorem checkpointIsWrittenOnlyBySaves : Obligations.CheckpointIsWrittenOnlyBySaves := by
  unfold Obligations.CheckpointIsWrittenOnlyBySaves
  intro i s t h
  obtain ⟨-, hc⟩ | ⟨-, v, rfl⟩ := exec_next h
  · exact ⟨hc.ckv, hc.checkpoint⟩
  · exact ⟨id, fun _ _ _ => ⟨rfl, rfl, rfl⟩⟩

/-- Settles O57: the writers of the sampler, its initialised flag and the writers of each operand register. -/
theorem samplerAndOperandWriters : Obligations.SamplerAndOperandWriters := by
  unfold Obligations.SamplerAndOperandWriters
  intro i s t h
  obtain ⟨-, hc⟩ | ⟨-, v, rfl⟩ := exec_next h
  · exact ⟨hc.smp, hc.sInit, hc.opr⟩
  · exact ⟨fun _ _ _ _ => rfl, id, fun _ => rfl, fun _ => rfl, fun _ => rfl⟩

/-- Settles O58: the writers of the result registers, and of the best-entry registers among them. -/
theorem resultRegisterWriters : Obligations.ResultRegisterWriters := by
  unfold Obligations.ResultRegisterWriters
  intro i s t h
  obtain ⟨-, hc⟩ | ⟨-, v, rfl⟩ := exec_next h
  · exact ⟨hc.cls, hc.best⟩
  · exact ⟨fun _ _ => rfl, fun _ => ⟨rfl, rfl, rfl, rfl⟩⟩

end Sys2Proof.Machine

/-! SUPPORT. The state after reset (R37, R200). -/

namespace Sys2Proof.Machine

/-- A step whose next action is reset gives the reset state (R200). -/
theorem step_reset {s : State} {rest : List HostAction} (h : s.host = .reset :: rest) :
    step s = .next (State.hwReset { s with host := rest }) := by
  rw [step, h]
  rfl

/-- Settles O11: the values are those of `State.resetOf`, and the configuration and the host's list stay. -/
theorem resetGivesTheSpecifiedValues : Obligations.ResetGivesTheSpecifiedValues := by
  unfold Obligations.ResetGivesTheSpecifiedValues
  intro s rest h
  refine ⟨_, step_reset h, ?_⟩
  simp [State.resetOf]

theorem State.resetOf_live (cfg : Config) : (State.resetOf cfg).flt.fault = false := rfl

/-- `STATUS` after reset is `0x0002`: the buffer is empty, and nothing else is set (R37). -/
theorem State.resetOf_status (cfg : Config) : (State.resetOf cfg).status = 0x0002#16 := by
  simp [State.status, State.resetOf, Smp.done, Buf.empty, bit]

theorem State.resetOf_avail (cfg : Config) (n : Nat) : (State.resetOf cfg).buf.avail n = 0 := by
  simp [Buf.avail, State.resetOf]

/-- Settles O12: each of the five reads answers from a register or count whose reset value is known. -/
theorem resetStateReadsAsSpecified : Obligations.ResetStateReadsAsSpecified := by
  unfold Obligations.ResetStateReadsAsSpecified
  intro cfg
  have hlive := State.resetOf_live cfg
  have hstat : resStat (State.resetOf cfg) = 0x0000000000000002#64 := by
    rw [resStat, State.resetOf_status]
    simp [State.resetOf]
  have hbavl : resCount ((State.resetOf cfg).buf.avail cfg.capacity) = 0#64 := by
    rw [State.resetOf_avail, resCount_of_lt (by decide)]
  have hbest : resBest (State.resetOf cfg).cls = 0#64 := by simp [resBest, State.resetOf, bit]
  refine ⟨?_, ?_, ?_, ?_, ?_⟩
  · rw [← hstat]
    rfl
  · rw [← hbavl]
    exact whenLive_live hlive _
  · exact whenLive_live hlive _
  · rw [← hbest]
    exact whenLive_live hlive _
  · exact whenLive_live hlive _

/-- Settles O51: the invariant holds after reset of every configuration, the platform's among them. -/
theorem resetMeetsTheInvariant : Obligations.ResetMeetsTheInvariant := by
  unfold Obligations.ResetMeetsTheInvariant
  exact ⟨State.resetOf_inv, State.resetOf_inv _⟩

end Sys2Proof.Machine

/-! SUPPORT. The unread region of a consistent buffer under `BufRead()` (R104, R152): a read takes its head. -/

namespace Sys2Proof.Machine

theorem Buf.consistent_iff (n : Nat) (b : Buf) :
    b.consistent n = true ↔ b.rd < n ∧ b.wr < n ∧ (b.full = true → b.rd = b.wr) := by
  cases hf : b.full <;> simp [Buf.consistent, hf, and_assoc]

theorem advance_of_lt {n c : Nat} (h : c < n) : advance n c = if c + 1 = n then 0 else c + 1 := by
  unfold advance
  split
  next h1 => rw [h1, Nat.mod_self]
  next h1 => exact Nat.mod_eq_of_lt (by omega)

theorem Buf.read_rd {b : Buf} (h : b.empty = false) (n : Nat) : (b.read n).2.rd = advance n b.rd := by
  simp [Buf.read, h]

theorem Buf.read_full {b : Buf} (h : b.empty = false) (n : Nat) : (b.read n).2.full = false := by
  simp [Buf.read, h]

/-- A read keeps the cursors in range, and leaves no full buffer but an unread one. -/
theorem Buf.consistent_read {n : Nat} {b : Buf} (h : b.consistent n = true) : (b.read n).2.consistent n = true := by
  cases he : b.empty with
  | true => rw [Buf.read_of_empty he]; exact h
  | false =>
    obtain ⟨hr, hw, -⟩ := (Buf.consistent_iff n b).mp h
    rw [Buf.consistent_iff, Buf.read_rd he, Buf.read_full he, Buf.read_wr]
    exact ⟨advance_lt (Nat.zero_lt_of_lt hr) _, hw, nofun⟩

/-- A read takes one of the unread samples (R107). -/
theorem Buf.avail_read {n : Nat} {b : Buf} (h : b.consistent n = true) (he : b.empty = false) :
    b.avail n = (b.read n).2.avail n + 1 := by
  obtain ⟨hr, hw, hm⟩ := (Buf.consistent_iff n b).mp h
  rw [Buf.avail_of_not_full (Buf.read_full he n), Buf.read_rd he, Buf.read_wr, advance_of_lt hr]
  cases hf : b.full with
  | true =>
    have := hm hf
    rw [Buf.avail_of_full hf]
    split <;> split <;> omega
  | false =>
    have hne : b.rd ≠ b.wr := fun heq => by simp [(Buf.empty_iff b).mpr ⟨heq, hf⟩] at he
    rw [Buf.avail_of_not_full hf]
    split <;> split <;> split <;> omega

theorem Buf.unread_of_empty {n : Nat} {b : Buf} (hr : b.rd < n) (he : b.empty = true) : b.unread n = [] := by
  simp [Buf.unread, (Buf.avail_eq_zero_iff hr).mpr he]

/-- A read takes the head of the unread region (R51, R104). -/
theorem Buf.unread_read {n : Nat} {b : Buf} (h : b.consistent n = true) (he : b.empty = false) :
    b.unread n = Memory.read b.rd b.store :: (b.read n).2.unread n := by
  obtain ⟨hr, -, -⟩ := (Buf.consistent_iff n b).mp h
  have shift (k : Nat) : (b.rd + (k + 1)) % n = (advance n b.rd + k) % n := by
    rw [advance, Nat.mod_add_mod, Nat.add_right_comm, Nat.add_assoc]
  simp [Buf.unread, Buf.avail_read h he, List.range_succ_eq_map, Function.comp_def, Buf.read_rd he,
    Nat.mod_eq_of_lt hr, shift]

/-- A consistent buffer whose unread cells have been written, so that every read of it is determined. -/
structure Buf.Known (n : Nat) (b : Buf) : Prop where
  consistent : b.consistent n = true
  written : b.unreadWritten n = true

theorem Buf.Known.readable {n : Nat} {b : Buf} (h : b.Known n) : b.readable n = true := by
  obtain ⟨hr, -, -⟩ := (Buf.consistent_iff n b).mp h.consistent
  simp [Buf.readable, hr]

/-- Everything a read of a known buffer can do: answer the sentinel of an empty one, or take the head of the unread
region. -/
theorem Buf.Known.read_cases {n : Nat} {b : Buf} (h : b.Known n) :
    (b.unread n = [] ∧ b.read n = (0#8, b)) ∨
    (∃ v, b.unread n = some v :: (b.read n).2.unread n ∧ (b.read n).1 = v ∧ (b.read n).2.draws = b.draws) := by
  cases he : b.empty with
  | true =>
    obtain ⟨hr, -, -⟩ := (Buf.consistent_iff n b).mp h.consistent
    exact .inl ⟨Buf.unread_of_empty hr he, Buf.read_of_empty he n⟩
  | false =>
    have hu := Buf.unread_read h.consistent he
    have hw := h.written
    rw [Buf.unreadWritten, hu, List.all_cons, Bool.and_eq_true] at hw
    obtain ⟨v, hv⟩ := Option.isSome_iff_exists.mp hw.1
    refine .inr ⟨v, hv ▸ hu, ?_⟩
    simp [Buf.read_of_written he hv]

theorem Buf.Known.read {n : Nat} {b : Buf} (h : b.Known n) : (b.read n).2.Known n := by
  refine ⟨Buf.consistent_read h.consistent, ?_⟩
  have hw := h.written
  obtain ⟨-, he⟩ | ⟨v, hu, -⟩ := h.read_cases
  · rw [he]; exact hw
  · rw [Buf.unreadWritten, hu, List.all_cons, Bool.and_eq_true] at hw
    exact hw.2

theorem Buf.Known.read_draws {n : Nat} {b : Buf} (h : b.Known n) : (b.read n).2.draws = b.draws := by
  obtain ⟨-, he⟩ | ⟨v, -, -, hd⟩ := h.read_cases
  · rw [he]
  · exact hd

/-- A read answers the first of the samples a compare takes (R152). -/
theorem Buf.Known.read_fst {n : Nat} {b : Buf} (h : b.Known n) : (b.read n).1 = b.sampleAt n 0 := by
  obtain ⟨hu, he⟩ | ⟨v, hu, hv, -⟩ := h.read_cases
  · simp [Buf.sampleAt, hu, he]
  · simp [Buf.sampleAt, hu, hv]

/-- A read leaves the rest of the samples a compare takes. -/
theorem Buf.Known.sampleAt_read {n : Nat} {b : Buf} (h : b.Known n) (k : Nat) :
    (b.read n).2.sampleAt n k = b.sampleAt n (k + 1) := by
  obtain ⟨hu, he⟩ | ⟨v, hu, -, -⟩ := h.read_cases
  · simp [Buf.sampleAt, hu, he]
  · simp [Buf.sampleAt, hu]

end Sys2Proof.Machine

/-! SUPPORT. The compare over a known buffer (R150, R151, R152): its sum is `pairSum`, and it leaves the buffer as it
was but for the checkpoint. -/

namespace Sys2Proof.Machine

/-- The first pair, and the pairs after it. -/
theorem Buf.Known.pairSum_succ {n : Nat} {b : Buf} (h : b.Known n) (g : Smp) (count : Nat) :
    pairSum n b g (count + 1) = squaredDiff (b.read n).1 g.get.1 + pairSum n (b.read n).2 g.get.2 count := by
  simp only [pairSum, List.range_succ_eq_map, List.map_cons, List.sum_cons, List.map_map, Function.comp_def,
    h.read_fst, h.sampleAt_read]
  rfl

theorem pairSum_le (n : Nat) (b : Buf) (g : Smp) (count : Nat) : pairSum n b g count ≤ count * (255 * 255) := by
  have := List.sum_le_card_nsmul ((List.range count).map fun k => squaredDiff (b.sampleAt n k) (g.output k))
    (255 * 255) (by
      intro x hx
      obtain ⟨k, -, rfl⟩ := List.mem_map.mp hx
      exact squaredDiff_le ..)
  simpa [pairSum] using this

/-- The sum of fewer than `2^32` pairs needs no more than 48 bits (R151). -/
theorem pairSum_lt (n : Nat) (b : Buf) (g : Smp) {count : Nat} (h : count < 2 ^ 32) :
    pairSum n b g count < 2 ^ 48 := by
  have := pairSum_le n b g count
  omega

theorem comparePairs_known {n : Nat} {b : Buf} (h : b.Known n) (count sum : Nat) (g : Smp) :
    (comparePairs n count sum b g).1 = sum + pairSum n b g count ∧
    (comparePairs n count sum b g).2.1.draws = b.draws := by
  induction count generalizing sum b g with
  | zero => exact ⟨rfl, rfl⟩
  | succ k ih =>
    obtain ⟨hsum, hdraws⟩ := ih h.read (sum + squaredDiff (b.read n).1 g.get.1) g.get.2
    rw [comparePairs, hsum, hdraws, h.pairSum_succ, Nat.add_assoc]
    exact ⟨rfl, h.read_draws⟩

/-- A sampler run for as long as it has samples is exhausted (R206). -/
theorem Smp.after_rem_self (g : Smp) : (Smp.after g.rem.toNat g).rem = 0#32 :=
  BitVec.eq_of_toNat_eq ((Smp.after_rem_toNat ..).trans (Nat.sub_self _))

/-- The score of a compare over a known buffer is that of its pairs. -/
theorem runCompare_fst_of_known {s : State} (h : s.buf.Known s.cfg.capacity) :
    (runCompare s).1 = entryScore s s.smp := by
  obtain ⟨hsum, -⟩ := comparePairs_known (b := s.buf.save) ⟨h.consistent, h.written⟩ s.smp.rem.toNat 0 s.smp
  rw [Nat.zero_add] at hsum
  exact congrArg (scoreOf · s.smp.rem.toNat) hsum

/-- A compare over a known buffer takes no free draw, so it only sets the checkpoint (R205). -/
theorem runCompare_buf_of_known {s : State} (h : s.buf.Known s.cfg.capacity) : (runCompare s).2.buf = s.buf.save := by
  obtain ⟨-, hdraws⟩ := comparePairs_known (b := s.buf.save) ⟨h.consistent, h.written⟩ s.smp.rem.toNat 0 s.smp
  obtain ⟨d, hd⟩ := runCompare_buf s
  have : d = s.buf.draws := (congrArg Buf.draws hd).symm.trans hdraws
  rw [hd, this]
  rfl

end Sys2Proof.Machine

/-! SUPPORT. A score is finite (R150 (d)): coarse bounds on rounding and on the integer square root suffice. -/

namespace Sys2Proof.Machine

theorem roundEven_le (n d : Nat) : roundEven n d ≤ n / d + 1 := by
  simp only [roundEven]
  split
  · omega
  · split <;> omega

/-- The last place of a number's 53 bits is not above the number, or is 1. -/
theorem two_pow_log2_sub_le (q : Nat) : 2 ^ (Nat.log2 q - 52) ≤ q + 1 := by
  rcases Nat.eq_zero_or_pos q with rfl | hq
  · simp
  · calc 2 ^ (Nat.log2 q - 52) ≤ 2 ^ Nat.log2 q := Nat.pow_le_pow_right Nat.two_pos (Nat.sub_le ..)
      _ ≤ q := Nat.log2_self_le hq.ne'
      _ ≤ q + 1 := Nat.le_succ q

theorem roundMag_le (n d : Nat) : roundMag n d ≤ 2 * (n / d) + 1 := by
  have hg := two_pow_log2_sub_le (n / d)
  simp only [roundMag]
  generalize 2 ^ (Nat.log2 (n / d) - 52) = g at hg ⊢
  calc roundEven n (d * g) * g ≤ (n / (d * g) + 1) * g := Nat.mul_le_mul_right g (roundEven_le ..)
    _ = n / d / g * g + g := by rw [Nat.add_one_mul, Nat.div_div_eq_div_mul]
    _ ≤ n / d + g := Nat.add_le_add_right (Nat.div_mul_le_self ..) g
    _ ≤ 2 * (n / d) + 1 := by omega

/-- A quotient well below the limit rounds to a finite value, at most about twice as large. -/
theorem Fp.round_of_div_lt (neg : Bool) {n d : Nat} (h : 2 * (n / d) + 1 < Fp.limit) :
    ∃ m, m ≤ 2 * (n / d) + 1 ∧ Fp.round neg n d = .fin neg m :=
  ⟨_, roundMag_le n d, if_pos ((roundMag_le n d).trans_lt h)⟩

theorem isqrtFrom_lt (n k r : Nat) : isqrtFrom n k r < r + 2 ^ k := by
  induction k generalizing r with
  | zero => exact Nat.lt_succ_self r
  | succ k ih =>
    rw [isqrtFrom, Nat.pow_succ]
    split
    · have := ih (r + 2 ^ k)
      omega
    · have := ih r
      omega

/-- The integer square root has half as many bits. -/
theorem isqrt_lt {n j : Nat} (h0 : n ≠ 0) (h : n < 2 ^ (2 * j)) : isqrt n < 2 ^ j := by
  have hlog := (Nat.log2_lt h0).mpr h
  have := isqrtFrom_lt n (Nat.log2 n / 2 + 1) 0
  rw [Nat.zero_add] at this
  exact this.trans_le (Nat.pow_le_pow_right Nat.two_pos (by omega))

/-- A root that is not zero rounds a half-integer, or an integer, with the integer square root as its floor. -/
theorem fsqrt_of_ne_zero {mag : Nat} (h : mag ≠ 0) :
    ∃ p, p / 2 = isqrt (Fp.unit * mag) ∧ fsqrt (.fin false mag) = Fp.round false p 2 := by
  simp only [fsqrt, h, if_false, Bool.false_eq_true]
  refine ⟨_, ?_, rfl⟩
  split <;> omega

theorem fsqrt_fin_bound {mag j : Nat} (h : Fp.unit * mag < 2 ^ (2 * j)) (hj : 2 ^ (j + 1) ≤ Fp.limit) :
    ∃ r, r < 2 ^ (j + 1) ∧ fsqrt (.fin false mag) = .fin false r := by
  by_cases h0 : mag = 0
  · exact ⟨0, Nat.two_pow_pos _, by simp [fsqrt, h0]⟩
  · obtain ⟨p, hp, hroot⟩ := fsqrt_of_ne_zero h0
    have hi := isqrt_lt (Fp.unit_mul_ne_zero h0) h
    have hb : 2 * (p / 2) + 1 < 2 ^ (j + 1) := by rw [hp, Nat.pow_succ]; omega
    obtain ⟨m, hm, he⟩ := Fp.round_of_div_lt false (hb.trans_le hj)
    exact ⟨m, hm.trans_lt hb, hroot.trans he⟩

theorem fdiv_unit_mul_fin {a c : Nat} (hc : c ≠ 0) (ha : 2 * a + 1 < Fp.limit) :
    ∃ m, fdiv (.fin false a) (.fin false (Fp.unit * c)) = .fin false m := by
  have hq : Fp.unit * a / (Fp.unit * c) ≤ a := by
    rw [Nat.mul_div_mul_left _ _ Fp.unit_pos]
    exact Nat.div_le_self a c
  obtain ⟨m, -, he⟩ := Fp.round_of_div_lt false (n := Fp.unit * a) (d := Fp.unit * c) (by omega)
  exact ⟨m, by simpa [fdiv, Fp.unit_mul_ne_zero hc] using he⟩

/-- Over the sums and counts a compare can reach, the score is finite and not negative (R150 (d), R151). -/
theorem scoreOf_fin {sum count : Nat} (hs : sum < 2 ^ 48) (h0 : count ≠ 0) (hc : count < 2 ^ 53) :
    ∃ m, scoreOf sum count = .fin false m := by
  obtain ⟨k, hk, hu⟩ := Fp.unit_eq_two_pow
  have below (j : Nat) (hj : j ≤ k + 52) : 2 ^ j ≤ Fp.limit :=
    calc 2 ^ j ≤ 2 ^ k * 2 ^ 52 := by rw [← Nat.pow_add]; exact Nat.pow_le_pow_right Nat.two_pos hj
      _ ≤ Fp.limit := (two_pow_mul_lt_limit hk (by decide)).le
  have hroot : Fp.unit * (Fp.unit * sum) < 2 ^ (2 * (k + 24)) := by
    rw [hu]
    calc 2 ^ k * (2 ^ k * sum) < 2 ^ k * (2 ^ k * 2 ^ 48) :=
          Nat.mul_lt_mul_of_pos_left (Nat.mul_lt_mul_of_pos_left hs (Nat.two_pow_pos k)) (Nat.two_pow_pos k)
      _ = 2 ^ (2 * (k + 24)) := by rw [← Nat.pow_add, ← Nat.pow_add]; congr 1; omega
  obtain ⟨r, hr, he⟩ := fsqrt_fin_bound hroot (below _ (by omega))
  have hr2 : 2 * r + 1 < Fp.limit := by
    have := below (k + 26) (by omega)
    have hpow : 2 ^ (k + 26) = 2 * 2 ^ (k + 24 + 1) := by rw [← Nat.pow_succ']
    omega
  rw [scoreOf, cvt_of_lt (hs.trans (by decide)), cvt_of_lt hc, he]
  exact fdiv_unit_mul_fin h0 hr2

theorem entryScore_fin (s : State) {g : Smp} (hz : g.rem ≠ 0#32) : ∃ m, entryScore s g = .fin false m :=
  scoreOf_fin (pairSum_lt _ _ _ g.rem.isLt) (Smp.rem_toNat_ne_zero hz) (g.rem.isLt.trans (by decide))

end Sys2Proof.Machine

/-! SUPPORT. The running minimum of the search (R153): offered finite scores in index order, it holds the first of the
least ones. -/

namespace Sys2Proof.Machine

/-- The pattern of a finite value has nothing free in it (log 9). -/
theorem bits64_of_fin {v : Fp} {neg : Bool} {mag : Nat} (h : v = .fin neg mag) (nan nan' : BitVec 52) :
    bits64 nan v = bits64 nan' v := by
  rw [h]
  rfl

theorem flt_fin (a b : Nat) : flt (.fin false a) (.fin false b) = decide (a < b) := by
  simp [flt, Fp.signed]

theorem drop_eq_cons {α : Type} {l : List α} {i : Nat} {e : α} {es : List α} (h : l.drop i = e :: es) :
    l[i]? = some e ∧ l.drop (i + 1) = es := by
  constructor
  · simpa [h] using (List.getElem?_drop (xs := l) (i := i) (j := 0)).symm
  · rw [← List.tail_drop, h]
    rfl

/-- The entries `es` offered one after another, from index `i` on, entry `j` with the score `score j`. -/
def Best.offerAll (score : Nat → Fp) : List DictEntry → Nat → Best → Best
  | [], _, best => best
  | e :: es, i, best => Best.offerAll score es (i + 1) (best.offer (score i) i e.sym)

/-- `best` is the first of the least of the magnitudes `m j` of the entries `j < n`. -/
structure Best.Selects (dict : List DictEntry) (m : Nat → Nat) (n : Nat) (best : Best) : Prop where
  bv : best.bv = true
  lt : best.bi < n
  entry : ∃ e, dict[best.bi]? = some e ∧ best.bs = e.sym
  min : best.min = .fin false (m best.bi)
  least : ∀ j, j < n → m best.bi ≤ m j
  first : ∀ j, j < best.bi → m best.bi < m j

section Selection

variable {dict : List DictEntry} {m : Nat → Nat}

/-- Any finite score is below the start of the running minimum (D21). -/
theorem Best.start_offer {e : DictEntry} (he : dict[0]? = some e) :
    (Best.start.offer (.fin false (m 0)) 0 e.sym).Selects dict m 1 where
  bv := rfl
  lt := Nat.one_pos
  entry := ⟨e, he, rfl⟩
  min := rfl
  least j hj := by rw [Nat.lt_one_iff.mp hj]; exact Nat.le_refl (m 0)
  first j hj := absurd hj (Nat.not_lt_zero j)

theorem Best.Selects.offer {n : Nat} {best : Best} (h : best.Selects dict m n) {e : DictEntry}
    (he : dict[n]? = some e) : (best.offer (.fin false (m n)) n e.sym).Selects dict m (n + 1) := by
  rw [Best.offer, h.min, flt_fin]
  split
  next hlt =>
    have hlt : m n < m best.bi := by simpa using hlt
    exact {
      bv := rfl
      lt := Nat.lt_succ_self n
      entry := ⟨e, he, rfl⟩
      min := rfl
      least := fun j hj => by
        rcases Nat.lt_succ_iff_lt_or_eq.mp hj with hj | rfl
        · exact hlt.le.trans (h.least j hj)
        · exact Nat.le_refl _
      first := fun j hj => hlt.trans_le (h.least j hj) }
  next hlt =>
    have hlt : m best.bi ≤ m n := by simpa using hlt
    exact {
      bv := h.bv
      lt := h.lt.trans (Nat.lt_succ_self n)
      entry := h.entry
      min := h.min
      least := fun j hj => by
        rcases Nat.lt_succ_iff_lt_or_eq.mp hj with hj | rfl
        · exact h.least j hj
        · exact hlt
      first := h.first }

theorem Best.Selects.offerAll {score : Nat → Fp} (hm : ∀ j, j < dict.length → score j = .fin false (m j))
    {es : List DictEntry} {n : Nat} {best : Best} (hes : dict.drop n = es) (h : best.Selects dict m n) :
    (Best.offerAll score es n best).Selects dict m (n + es.length) := by
  induction es generalizing n best with
  | nil => exact h
  | cons e es ih =>
    obtain ⟨he, htail⟩ := drop_eq_cons hes
    obtain ⟨hn, -⟩ := List.getElem?_eq_some_iff.mp he
    rw [Best.offerAll, hm n hn, List.length_cons, ← Nat.add_assoc, Nat.add_right_comm]
    exact ih htail (h.offer he)

/-- Offered every entry of a dictionary that has one, the running minimum selects. -/
theorem Best.offerAll_selects {score : Nat → Fp} (hm : ∀ j, j < dict.length → score j = .fin false (m j))
    (hd : dict ≠ []) : (Best.offerAll score dict 0 Best.start).Selects dict m dict.length := by
  obtain ⟨e, es, rfl⟩ := List.exists_cons_of_ne_nil hd
  rw [Best.offerAll, hm 0 (Nat.succ_pos _), List.length_cons, Nat.add_comm]
  exact (Best.start_offer rfl).offerAll hm rfl

end Selection

end Sys2Proof.Machine

/-! SUPPORT. The search over a known buffer (R153): it completes when every entry resets with samples, each compare
starting from the same unread samples. -/

namespace Sys2Proof.Machine

/-- The score of an entry depends on the buffer through what a save leaves as it is, and on the capacity. -/
theorem entryScore_congr {s t : State} (hcfg : t.cfg = s.cfg) (hbuf : t.buf.save = s.buf.save) (g : Smp) :
    entryScore t g = entryScore s g := by
  have : pairSum s.cfg.capacity t.buf.save g g.rem.toNat = pairSum s.cfg.capacity s.buf.save g g.rem.toNat := by
    rw [hbuf]
  rw [entryScore, hcfg]
  exact congrArg (scoreOf · g.rem.toNat) this

/-- What the search has brought `s` to after comparing entries `0 .. n-1`, whose sampler resets gave `g j`. -/
structure Compared (s : State) (g : Nat → Smp) (n : Nat) (t : State) : Prop where
  frame : SearchFrame s t
  save : t.buf.save = s.buf.save
  undr : t.cls.undr = true ↔ s.cls.undr = true ∨ ∃ j, j < n ∧ s.buf.avail s.cfg.capacity < (g j).rem.toNat
  last_buf : 0 < n → t.buf = s.buf.save
  last_smp : 0 < n → t.smp = Smp.after (g (n - 1)).rem.toNat (g (n - 1))
  last_score : 0 < n → ∃ nan, t.cls.score = bits64 nan (entryScore s (g (n - 1)))

theorem Compared.refl (s : State) (g : Nat → Smp) : Compared s g 0 s where
  frame := .refl s
  save := rfl
  undr := by simp
  last_buf := nofun
  last_smp := nofun
  last_score := nofun

section Search

variable {s : State} {g : Nat → Smp} {n : Nat} {t : State}

theorem Compared.known (h : Compared s g n t) (hb : s.buf.Known s.cfg.capacity) : t.buf.Known t.cfg.capacity := by
  have hs : t.buf.save.Known s.cfg.capacity := h.save ▸ ⟨hb.consistent, hb.written⟩
  rw [h.frame.cfg]
  exact ⟨hs.consistent, hs.written⟩

theorem Compared.avail (h : Compared s g n t) : t.buf.avail t.cfg.capacity = s.buf.avail s.cfg.capacity := by
  have : t.buf.save.avail s.cfg.capacity = s.buf.save.avail s.cfg.capacity := by rw [h.save]
  rw [h.frame.cfg]
  exact this

theorem undrAfter_eq_true_iff (undr : Bool) (count avail : Nat) :
    undrAfter undr count avail = true ↔ undr = true ∨ avail < count := by
  simp [undrAfter]

/-- One more compare, over the sampler reset of entry `n`. -/
theorem Compared.next (h : Compared s g n t) (hb : s.buf.Known s.cfg.capacity) :
    (runCompare { t with smp := g n }).1 = entryScore s (g n) ∧
    Compared s g (n + 1) (runCompare { t with smp := g n }).2 := by
  have hbuf : (runCompare { t with smp := g n }).2.buf = s.buf.save :=
    (runCompare_buf_of_known (s := { t with smp := g n }) (h.known hb)).trans h.save
  have hscore : (runCompare { t with smp := g n }).1 = entryScore s (g n) :=
    (runCompare_fst_of_known (s := { t with smp := g n }) (h.known hb)).trans
      (entryScore_congr h.frame.cfg h.save (g n))
  refine ⟨hscore, {
    frame := h.frame.trans (runCompare_frame t (g n))
    save := by rw [hbuf]; rfl
    undr := ?_
    last_buf := fun _ => hbuf
    last_smp := fun _ => runCompare_smp _
    last_score := fun _ => ⟨_, by rw [runCompare_score, hscore]; rfl⟩ }⟩
  rw [runCompare_undr, undrAfter_eq_true_iff, h.undr, h.avail, or_assoc]
  simp only [Nat.lt_succ_iff_lt_or_eq, or_and_right, exists_or, exists_eq_left]

/-- An entry that resets with samples is compared and offered (R153). -/
theorem search_cons_of_samples {e : DictEntry} {g : Smp} (hg : smpReset t.opr.itv t.opr.spd e.code = .ok g)
    (hz : g.rem ≠ 0#32) (hr : t.buf.readable t.cfg.capacity = true) (es : List DictEntry) (i : Nat) (best : Best) :
    search (e :: es) i best t =
      search es (i + 1) (best.offer (runCompare { t with smp := g }).1 i e.sym) (runCompare { t with smp := g }).2 := by
  simp [search, hg, hz, hr]

/-- The search completes, having offered the score of every entry. -/
theorem search_of_samples (hb : s.buf.Known s.cfg.capacity)
    (hg : ∀ j e, s.cfg.dict[j]? = some e → smpReset s.opr.itv s.opr.spd e.code = .ok (g j) ∧ (g j).rem ≠ 0#32)
    {es : List DictEntry} (hes : s.cfg.dict.drop n = es) (h : Compared s g n t) (best : Best) :
    ∃ u, search es n best t = .completed (Best.offerAll (fun j => entryScore s (g j)) es n best) u ∧
      Compared s g (n + es.length) u := by
  induction es generalizing n best t with
  | nil => exact ⟨t, rfl, h⟩
  | cons e es ih =>
    obtain ⟨he, htail⟩ := drop_eq_cons hes
    obtain ⟨hreset, hz⟩ := hg n e he
    rw [← h.frame.opr] at hreset
    obtain ⟨hscore, hnext⟩ := h.next hb
    rw [search_cons_of_samples hreset hz (h.known hb).readable, hscore, List.length_cons, ← Nat.add_assoc,
      Nat.add_right_comm]
    exact ih htail hnext _

/-- The search of CLSF completes with the first of the least scores, all of them finite. -/
theorem searchAll_of_samples (hd : s.cfg.dict ≠ []) (hb : s.buf.Known s.cfg.capacity)
    (hg : ∀ j e, s.cfg.dict[j]? = some e → smpReset s.opr.itv s.opr.spd e.code = .ok (g j) ∧ (g j).rem ≠ 0#32) :
    ∃ m best u, s.searchAll = .completed best u ∧ best.Selects s.cfg.dict m s.cfg.dict.length ∧
      (∀ j, j < s.cfg.dict.length → entryScore s (g j) = .fin false (m j)) ∧
      Compared s.clearUndr g s.cfg.dict.length u := by
  have hfin (j : Nat) (hj : j < s.cfg.dict.length) : ∃ m, entryScore s (g j) = .fin false m :=
    entryScore_fin s (hg j _ (List.getElem?_eq_getElem hj)).2
  choose! m hm using hfin
  obtain ⟨u, hu, hcmp⟩ := search_of_samples (s := s.clearUndr) hb hg List.drop_zero (.refl s.clearUndr g) Best.start
  rw [Nat.zero_add] at hcmp
  exact ⟨m, _, u, hu, Best.offerAll_selects hm hd, hm, hcmp⟩

/-- A live CLSF whose search completes stores the best entry and answers it (R153). -/
theorem execClsf_of_completed (hf : s.flt.fault = false) {best : Best} (hs : s.searchAll = .completed best t) :
    execClsf s = .next ((t.storeBest best).respond (resBest (t.storeBest best).cls)) := by
  simp [execClsf, whenLive_live hf, hs, SearchEnd.inStore, clsfState]

end Search

theorem State.storeBest_besterr {best : Best} (h : best.bv = true) (s : State) :
    (s.storeBest best).cls.besterr = bits64 (Config.freeNan s.opr.itv s.opr.spd) best.min := if_pos h

/-- Settles O45: the search completes with the running minimum over the finite scores of all entries, and every compare
leaves the buffer and the last one the sampler and `SCORE`. -/
theorem clsfSelectsTheFirstMinimum : Obligations.ClsfSelectsTheFirstMinimum := by
  unfold Obligations.ClsfSelectsTheFirstMinimum
  intro s g hf hd hc hw hg
  obtain ⟨m, best, u, hu, hsel, hm, hcmp⟩ := searchAll_of_samples hd ⟨hc, hw⟩ hg
  have hlen : 0 < s.cfg.dict.length := List.length_pos_of_ne_nil hd
  obtain ⟨e, he, hsym⟩ := hsel.entry
  have hbest := hm _ hsel.lt
  have hsmp := hcmp.last_smp hlen
  have hlt := Nat.sub_one_lt_of_lt hlen
  obtain ⟨hlast, -⟩ := hg _ _ (List.getElem?_eq_getElem hlt)
  obtain ⟨-, -, -, hinit, -⟩ := smpReset_ok hlast
  refine ⟨_, _, e, execClsf_of_completed hf hu, he, hsel.bv, rfl, hsym, ?besterr, ?rsp, ?least, ?first,
    hcmp.last_buf hlen, ?score, ?undr, hsmp, ?rem, ?sInit, hcmp.frame.opr, hcmp.frame.flt, hcmp.frame.cfg,
    hcmp.frame.host⟩
  case besterr =>
    intro nan
    rw [hbest, State.respond_cls, State.storeBest_besterr hsel.bv, hsel.min]
    rfl
  case rsp =>
    rw [State.respond_rsp, resBest, State.storeBest_bestv, State.storeBest_bestsym, hsel.bv, hsym]
    rfl
  case least =>
    intro j e' he'
    obtain ⟨hj, -⟩ := List.getElem?_eq_some_iff.mp he'
    rw [hm j hj, hbest, flt_fin, decide_eq_false_iff_not, Nat.not_lt]
    exact hsel.least j hj
  case first =>
    intro j hj
    rw [hm j (hj.trans hsel.lt), hbest, flt_fin, decide_eq_true_eq]
    exact hsel.first j hj
  case score =>
    intro nan
    obtain ⟨nan', hs⟩ := hcmp.last_score hlen
    exact hs.trans (bits64_of_fin (hm _ hlt) nan' nan)
  case undr => simpa using hcmp.undr
  case rem => exact (congrArg Smp.rem hsmp).trans (Smp.after_rem_self _)
  case sInit => exact (congrArg Smp.sInit hsmp).trans ((Smp.after_sInit ..).trans hinit)

end Sys2Proof.Machine

/-! SUPPORT. Decoder and encoder are inverse on the legal words (R70 to R75): every command's word decodes to it, and
what `commandOf` accepts fixes both fields of the word. -/

namespace Sys2Proof

namespace Laws.RoundTrip

/-- The family, assembled: every command's word decodes to it and fits a row of the opcode map. -/
theorem statement (i : Instr) : Statement i := by
  cases i with
  | stat => exact stat
  | bclr => exact bclr
  | bwr s => exact bwr s
  | bavl => exact bavl
  | brd => exact brd
  | bsave => exact bsave
  | bret => exact bret
  | ldi v => exact ldi v
  | lds v => exact lds v
  | ldc c => exact ldc c
  | srst => exact srst
  | srem => exact srem
  | sget => exact sget
  | cmp => exact cmp
  | clsf => exact clsf
  | rdsc => exact rdsc
  | rdbest => exact rdbest
  | rdberr => exact rdberr

end Laws.RoundTrip

theorem decode_encode (i : Instr) : decode (encode i) = .command i := (Laws.RoundTrip.statement i).1

theorem legalWord_encode (i : Instr) : legalWord (encode i) = true := (Laws.RoundTrip.statement i).2

/-- Settles O2, from the round trip of each command. -/
theorem decodeOfEncodeIsTheCommand : Obligations.DecodeOfEncodeIsTheCommand := decode_encode

/-! ### What the decoder accepts -/

/-- Steps (1) to (4) of R74: the opcode names the command, and the bits its format reserves are zero. -/
theorem decode_eq_command_iff {w : CommandWord} {i : Instr} :
    decode w = .command i ↔ commandOf (opOf w) (argOf w) = some i ∧ argOf w &&& i.format.mustBeZero = 0#64 := by
  unfold decode
  split
  next hn => simp [hn]
  next j hj =>
    split
    next hz =>
      rw [hj, Decoded.command.injEq, Option.some.injEq]
      exact ⟨fun h => ⟨h, h ▸ hz⟩, And.left⟩
    next hz =>
      rw [hj, Option.some.injEq]
      exact ⟨nofun, fun ⟨h, hz'⟩ => absurd (h ▸ hz') hz⟩

/-- The command that an opcode names has that opcode. -/
theorem opcode_of_commandOf {op : Opcode} {arg : BitVec 64} {i : Instr} (h : commandOf op arg = some i) :
    i.opcode = op := by
  unfold commandOf at h
  split at h <;> cases h <;> rfl

/-- An operand whose reserved bits are zero is the argument, so `commandOf` drops no bit of it. -/
theorem operand_of_commandOf {arg : BitVec 64} {i : Instr} (h : commandOf i.opcode arg = some i)
    (hz : arg &&& i.format.mustBeZero = 0#64) : i.operand = arg := by
  cases i with
  | bwr s =>
    cases h
    exact (highBits_zero_iff 8 (by decide) arg).mp hz
  | ldc c =>
    cases h
    exact (highBits_zero_iff 32 (by decide) arg).mp hz
  | ldi v => cases h; rfl
  | lds v => cases h; rfl
  | _ => exact (BitVec.and_allOnes.symm.trans hz).symm

/-- A word that decodes to a command has that command's opcode and operand as its two fields (R70). -/
theorem encode_of_decode {w : CommandWord} {i : Instr} (h : decode w = .command i) : encode i = w := by
  obtain ⟨hc, hz⟩ := decode_eq_command_iff.mp h
  have hop := opcode_of_commandOf hc
  have harg : i.operand = argOf w := operand_of_commandOf (hop ▸ hc) hz
  rw [encode, hop, harg, op_append_arg]

/-- Settles O3: the opcode and the operand of the command are the word's two fields. -/
theorem encodeOfDecodeIsTheWord : Obligations.EncodeOfDecodeIsTheWord := fun _ _ => encode_of_decode

/-! ### The match and mask rows -/

/-- A word is put together from its two fields in one way only (R70). -/
theorem append_fields_inj {a a' : Opcode} {b b' : BitVec 64} : a ++ b = a' ++ b' ↔ a = a' ∧ b = b' := by
  refine ⟨fun h => ⟨?_, ?_⟩, by rintro ⟨rfl, rfl⟩; rfl⟩
  · have := congrArg (BitVec.extractLsb' 64 8) h
    simpa only [BitVec.extractLsb'_append_eq_left] using this
  · have := congrArg (BitVec.extractLsb' 0 64) h
    simpa only [BitVec.extractLsb'_append_eq_right] using this

/-- The match word of a row: its opcode in bits 71:64, zeros below (R74). -/
theorem matchWord_eq_append (op : Opcode) : op.zeroExtend 72 <<< 64 = op ++ 0#64 := by
  simpa using (BitVec.setWidth_append_eq_shiftLeft_setWidth_or (w'' := 72) (b := op) (b' := 0#64)).symm

/-- A row fits a word exactly when the opcode is the row's and the bits its format reserves are zero (R74). -/
theorem fitsRow_iff {w : CommandWord} {r : Opcode × Format} :
    fitsRow w r = true ↔ opOf w = r.1 ∧ argOf w &&& r.2.mustBeZero = 0#64 := by
  have hop : opOf w &&& 0xFF#8 = opOf w := BitVec.and_allOnes
  rw [fitsRow, beq_iff_eq, Laws.RoundTrip.mask_eq, matchWord_eq_append, ← op_append_arg w, BitVec.and_append,
    append_fields_inj, op_append_arg w, hop]

/-- `commandOf` knows every row of the opcode map, with the row's format (R73). -/
theorem commandOf_of_row (arg : BitVec 64) :
    ∀ r ∈ opcodeRows, ∃ i, commandOf r.1 arg = some i ∧ i.format = r.2 := by
  simp [opcodeRows, commandOf, Instr.format]

/-- A word that fits a row decodes to the row's command. -/
theorem decode_of_legalWord {w : CommandWord} (h : legalWord w = true) : ∃ i, decode w = .command i := by
  obtain ⟨r, hr, hfit⟩ := List.any_eq_true.mp h
  obtain ⟨hop, hz⟩ := fitsRow_iff.mp hfit
  obtain ⟨i, hc, hf⟩ := commandOf_of_row (argOf w) r hr
  exact ⟨i, decode_eq_command_iff.mpr ⟨hop ▸ hc, hf ▸ hz⟩⟩

/-- Every other word is reserved (R75): a word that decodes is its command's word, which is legal. -/
theorem decode_of_not_legalWord {w : CommandWord} (h : legalWord w = false) : ∃ r, decode w = .illegal r := by
  cases hd : decode w with
  | illegal r => exact ⟨r, rfl⟩
  | command i =>
    have hl := legalWord_encode i
    rw [encode_of_decode hd, h] at hl
    cases hl

/-- Settles O4: a fitting row names the command, and a command's word fits its row. -/
theorem decoderAcceptsExactlyTheMaskedRows : Obligations.DecoderAcceptsExactlyTheMaskedRows :=
  fun _ => ⟨decode_of_legalWord, decode_of_not_legalWord⟩

/-- No opcode stands in two rows of the opcode map (R73). -/
theorem opcodeRows_opcodes_nodup : (opcodeRows.map Prod.fst).Nodup := by decide

/-- Settles O5: both rows have the word's opcode, which stands in one row only. -/
theorem noWordFitsTwoRows : Obligations.NoWordFitsTwoRows := by
  intro w r r' hr hr' hfit hfit'
  obtain ⟨hop, -⟩ := fitsRow_iff.mp hfit
  obtain ⟨hop', -⟩ := fitsRow_iff.mp hfit'
  exact List.inj_on_of_nodup_map opcodeRows_opcodes_nodup hr hr' (hop.symm.trans hop')

/-- Settles O1: nine closed facts of the decoder, each of them evaluated. -/
theorem specWordsDecodeToTheirCommands : Obligations.SpecWordsDecodeToTheirCommands := by
  unfold Obligations.SpecWordsDecodeToTheirCommands
  decide

end Sys2Proof

/-! SUPPORT. The step that takes a reserved word (R75, R172). -/

namespace Sys2Proof.Machine

/-- A step that takes a word which does not decode executes it as an illegal word (R172). -/
theorem step_of_illegal {s : State} {w : CommandWord} {rest : List HostAction} {r : Illegal}
    (hh : s.host = .command w :: rest) (hd : decode w = .illegal r) :
    step s = execIllegal w { s with host := rest } := by
  simp only [step, hh, perform, transact, hd]

/-- While `FAULT = 0` an illegal word raises `IllegalCommand` with its own opcode (R75). -/
theorem execIllegal_live {s : State} (hf : s.flt.fault = false) (w : CommandWord) :
    execIllegal w s = .next (s.raise .illegalCommand (opOf w) 0) := by
  simp [execIllegal, hf, whenLive_live hf]

/-- Settles O7: the word does not decode (`decode_of_not_legalWord`), and the gate is open. -/
theorem reservedWordRaisesIllegalCommand : Obligations.ReservedWordRaisesIllegalCommand := by
  intro s w rest hh hl hf
  obtain ⟨r, hd⟩ := decode_of_not_legalWord hl
  exact (step_of_illegal hh hd).trans (execIllegal_live (s := { s with host := rest }) hf w)

end Sys2Proof.Machine

/-! SUPPORT. The commands of BUF on a live block (R101 to R106): one rule per command, in the model's own operations. -/

namespace Sys2Proof.Machine

section BufferCommands

variable {s : State} (hf : s.flt.fault = false)
include hf

theorem exec_bclr :
    exec .bclr s = .next (State.respond { s with buf := { s.buf with rd := 0, wr := 0, full := false } } 0#64) :=
  whenLive_live hf _

theorem exec_bwr (hw : s.buf.wr < s.cfg.capacity) (v : Sample) :
    exec (.bwr v) s = .next (State.respond { s with buf := s.buf.push s.cfg.capacity v } 0#64) :=
  (whenLive_live hf _).trans (if_pos hw)

theorem exec_bavl : exec .bavl s = .next (s.respond (resCount (s.buf.avail s.cfg.capacity))) := whenLive_live hf _

theorem exec_brd (hr : s.buf.readable s.cfg.capacity = true) :
    exec .brd s = .next
      (State.respond { s with buf := (s.buf.read s.cfg.capacity).2 } (resSample (s.buf.read s.cfg.capacity).1)) :=
  (whenLive_live hf _).trans (if_pos hr)

theorem exec_bsave : exec .bsave s = .next (State.respond { s with buf := s.buf.save } 0#64) := whenLive_live hf _

theorem exec_bret (hv : s.buf.ckv = true) :
    exec .bret s = .next (State.respond { s with buf := s.buf.restore } 0#64) :=
  (whenLive_live hf _).trans (if_pos hv)

theorem exec_bret_of_no_checkpoint (hv : s.buf.ckv = false) :
    exec .bret s = .next (s.raise .noCheckpoint (Instr.opcode .bret) 0) :=
  (whenLive_live hf _).trans (if_neg (by simp [hv]))

end BufferCommands

/-- A count of at most 64 bits is the number answered (R77). -/
theorem resCount_toNat {n : Nat} (h : n < 2 ^ 64) : (resCount n).toNat = n := by
  rw [resCount_of_lt h, BitVec.toNat_ofNat, Nat.mod_eq_of_lt h]

theorem Buf.readable_of_lt {n : Nat} {b : Buf} (h : b.rd < n) : b.readable n = true := by
  simp [Buf.readable, h]

theorem Buf.readable_of_empty {b : Buf} (h : b.empty = true) (n : Nat) : b.readable n = true := by
  simp [Buf.readable, h]

/-- The command word of BWR as R102 writes it. -/
theorem encode_bwr (v : Sample) : 0x11#8 ++ 0#56 ++ v = encode (.bwr v) := by
  have hz : v.zeroExtend 64 = 0#56 ++ v := BitVec.setWidth_eq_append (by decide)
  simp only [encode, Instr.opcode, Instr.operand, hz]
  exact BitVec.append_assoc

/-- Settles O14: the rule of BCLR is the statement. -/
theorem bclrEmptiesTheBuffer : Obligations.BclrEmptiesTheBuffer := ⟨by decide, fun _ hf => exec_bclr hf⟩

/-- Settles O15: the four steps are `Buf.push`, and `Memory.read_write` says what the one store changes. -/
theorem bwrStoresAtTheWriteCursor : Obligations.BwrStoresAtTheWriteCursor := by
  intro s v hf hw
  refine ⟨encode_bwr v ▸ decode_encode (.bwr v), Memory.write s.buf.wr v s.buf.store, exec_bwr hf hw v, fun a => ?_⟩
  exact Memory.read_write ..

/-- Settles O16: the answer is `Buf.avail`, which each clause evaluates in its branch. -/
theorem bavlReturnsTheUnreadCount : Obligations.BavlReturnsTheUnreadCount := by
  refine ⟨by decide, fun s hf => ⟨_, exec_bavl hf, fun hfull hn => ?_, fun hfull hle hn => ?_, fun hfull hlt hn => ?_⟩⟩
  · rw [Buf.avail_of_full hfull, resCount_toNat hn]
  · rw [Buf.avail_of_not_full hfull, if_pos hle, resCount_toNat hn]
  · rw [Buf.avail_of_not_full hfull, if_neg (Nat.not_le.mpr hlt), resCount_toNat hn]

/-- Settles O18: the two branches of `BufRead()`, told apart by emptiness. -/
theorem brdReturnsOldestSampleOrSentinel : Obligations.BrdReturnsOldestSampleOrSentinel := by
  refine ⟨by decide, fun s hf => ⟨fun he => ?_, fun hne hr => ?_⟩⟩
  · have he := (Buf.empty_iff s.buf).mpr he
    rw [exec_brd hf (Buf.readable_of_empty he _), Buf.read_of_empty he]
    rfl
  · obtain ⟨he, -⟩ | ⟨-, v, d, hread, hv⟩ := Buf.read_cases s.cfg.capacity s.buf
    · exact absurd ((Buf.empty_iff s.buf).mp he) hne
    · refine ⟨v, d, ?_, hv⟩
      rw [exec_brd hf (Buf.readable_of_lt hr), hread]
      rfl

/-- Settles O19: the rule of BSAVE is the statement. -/
theorem bsaveCapturesTheReadPoint : Obligations.BsaveCapturesTheReadPoint := ⟨by decide, fun _ hf => exec_bsave hf⟩

/-- Settles O20: one rule of BRET per clause. -/
theorem bretRestoresOrRaisesNoCheckpoint : Obligations.BretRestoresOrRaisesNoCheckpoint :=
  ⟨by decide, fun _ hf => ⟨exec_bret hf, exec_bret_of_no_checkpoint hf⟩⟩

end Sys2Proof.Machine

/-! SUPPORT. The unread region of a consistent buffer under BWR (R102, R107): a write appends to it and keeps the last
`N` samples. -/

namespace Sys2Proof.Machine

/-! ### The last `n` elements of a list -/

/-- Dropping the oldest element of a full queue keeps its last `n`. -/
theorem rtake_concat_of_le {α : Type} {l : List α} {n : Nat} (hn : 0 < n) (h : l.length ≤ n) (x : α) :
    (l ++ [x]).rtake n = (if l.length = n then l.tail else l) ++ [x] := by
  split
  next hl =>
    have hne : l ≠ [] := List.ne_nil_of_length_pos (hl ▸ hn)
    simp [List.rtake, hl, List.tail_append_of_ne_nil hne]
  next hl =>
    have hle : l.length + 1 - n = 0 := by omega
    simp [List.rtake, hle]

/-- Only the last `n` elements count for the last `n` after more have been appended. -/
theorem rtake_rtake_append {α : Type} (l x : List α) (n : Nat) : (l.rtake n ++ x).rtake n = (l ++ x).rtake n := by
  simp only [List.rtake, List.length_append, List.length_drop, List.drop_append, List.drop_drop]
  congr 2 <;> omega

theorem rtake_of_length_le {α : Type} {l : List α} {n : Nat} (h : l.length ≤ n) : l.rtake n = l := by
  simp [List.rtake, Nat.sub_eq_zero_of_le h]

/-! ### One write -/

@[simp] theorem Buf.unread_length (n : Nat) (b : Buf) : (b.unread n).length = b.avail n := by simp [Buf.unread]

theorem Buf.not_empty_of_full {b : Buf} (hf : b.full = true) : b.empty = false := by simp [Buf.empty, hf]

/-- A write into a full buffer is a read, which drops the oldest sample, and then a write (R102, R107). -/
theorem Buf.unread_push_of_full {n : Nat} {b : Buf} (hf : b.full = true) (v : Sample) :
    (b.push n v).unread n = ((b.read n).2.push n v).unread n := by
  have he := Buf.not_empty_of_full hf
  simp [Buf.unread, Buf.avail, hf, Buf.read_rd he, Buf.read_full he]

section Consistent

variable {n : Nat} {b : Buf} (h : b.consistent n = true)
include h

theorem Buf.rd_lt_of_consistent : b.rd < n := by
  obtain ⟨hr, -, -⟩ := (Buf.consistent_iff n b).mp h
  exact hr

theorem Buf.wr_lt_of_consistent : b.wr < n := by
  obtain ⟨-, hw, -⟩ := (Buf.consistent_iff n b).mp h
  exact hw

theorem Buf.capacity_pos_of_consistent : 0 < n := Nat.zero_lt_of_lt (Buf.rd_lt_of_consistent h)

theorem Buf.readable_of_consistent : b.readable n = true := Buf.readable_of_lt (Buf.rd_lt_of_consistent h)

theorem Buf.avail_le_of_consistent : b.avail n ≤ n :=
  Buf.avail_le (Buf.rd_lt_of_consistent h) (Buf.wr_lt_of_consistent h)

theorem Buf.avail_lt_of_consistent (hf : b.full = false) : b.avail n < n :=
  Buf.avail_lt (Buf.rd_lt_of_consistent h) (Buf.wr_lt_of_consistent h) hf

/-- The buffer holds `N` samples exactly when it is full (R103). -/
theorem Buf.full_eq_decide_avail : b.full = decide (n ≤ b.avail n) := by
  cases hf : b.full with
  | true => simp [Buf.avail_of_full hf]
  | false => simpa using Buf.avail_lt_of_consistent h hf

theorem Buf.unread_eq_nil_iff : b.unread n = [] ↔ b.empty = true := by
  rw [← List.length_eq_zero_iff, Buf.unread_length, Buf.avail_eq_zero_iff (Buf.rd_lt_of_consistent h)]

theorem Buf.consistent_push (v : Sample) : (b.push n v).consistent n = true := by
  have hn := Buf.capacity_pos_of_consistent h
  rw [Buf.consistent_iff, Buf.push_rd, Buf.push_wr, Buf.push_full]
  refine ⟨?_, advance_lt hn _, fun hfull => (of_decide_eq_true hfull).symm⟩
  split
  · exact advance_lt hn _
  · exact Buf.rd_lt_of_consistent h

/-- The first cell past the unread region of a buffer that is not full is the write cursor's (R51). -/
theorem Buf.rd_add_avail (hf : b.full = false) : (b.rd + b.avail n) % n = b.wr := by
  obtain ⟨hr, hw, -⟩ := (Buf.consistent_iff n b).mp h
  rw [Buf.avail_of_not_full hf]
  split
  next hle => rw [Nat.add_sub_cancel' hle, Nat.mod_eq_of_lt hw]
  next => rw [← Nat.add_assoc, Nat.add_sub_cancel' hr.le, Nat.add_mod_left, Nat.mod_eq_of_lt hw]

/-- No unread cell of a buffer that is not full is the write cursor's. -/
theorem Buf.unread_cell_ne_wr (hf : b.full = false) {k : Nat} (hk : k < b.avail n) : (b.rd + k) % n ≠ b.wr := by
  have hlt := Buf.avail_lt_of_consistent h hf
  rw [← Buf.rd_add_avail h hf]
  intro heq
  have := Nat.ModEq.add_left_cancel' b.rd heq
  rw [Nat.ModEq, Nat.mod_eq_of_lt (hk.trans hlt), Nat.mod_eq_of_lt hlt] at this
  exact hk.ne this

theorem Buf.avail_push_of_not_full (hf : b.full = false) (v : Sample) : (b.push n v).avail n = b.avail n + 1 := by
  obtain ⟨hr, hw, -⟩ := (Buf.consistent_iff n b).mp h
  rw [Buf.avail, Buf.push_full, Buf.push_rd, Buf.push_wr, hf, Buf.avail_of_not_full hf, advance_of_lt hw]
  simp only [Bool.false_eq_true, if_false, decide_eq_true_eq]
  split_ifs <;> omega

/-- A write into a buffer that is not full appends. -/
theorem Buf.unread_push_of_not_full (hf : b.full = false) (v : Sample) :
    (b.push n v).unread n = b.unread n ++ [some v] := by
  have keeps : ∀ k ∈ List.range (b.avail n),
      Memory.read ((b.rd + k) % n) (b.push n v).store = Memory.read ((b.rd + k) % n) b.store := fun k hk => by
    rw [Buf.push_store, Memory.read_write, if_neg (Buf.unread_cell_ne_wr h hf (List.mem_range.mp hk))]
  have hrd : (b.push n v).rd = b.rd := by simp [hf]
  rw [Buf.unread, Buf.avail_push_of_not_full h hf, List.range_succ, List.map_append, hrd, List.map_congr_left keeps]
  simp [Buf.unread, Buf.rd_add_avail h hf]

/-- A write appends to the unread region and keeps its last `N` samples (R102, R107). -/
theorem Buf.unread_push (v : Sample) : (b.push n v).unread n = (b.unread n ++ [some v]).rtake n := by
  have hn := Buf.capacity_pos_of_consistent h
  rw [rtake_concat_of_le hn (by simpa using Buf.avail_le_of_consistent h), Buf.unread_length]
  cases hf : b.full with
  | true =>
    have he := Buf.not_empty_of_full hf
    rw [if_pos (Buf.avail_of_full hf n), Buf.unread_push_of_full hf,
      Buf.unread_push_of_not_full (Buf.consistent_read h) (Buf.read_full he n), Buf.unread_read h he, List.tail_cons]
  | false =>
    rw [if_neg (Buf.avail_lt_of_consistent h hf).ne, Buf.unread_push_of_not_full h hf]

/-- A read leaves the tail of the unread region. -/
theorem Buf.unread_read_tail : (b.read n).2.unread n = (b.unread n).tail := by
  cases he : b.empty with
  | true => rw [Buf.read_of_empty he, (Buf.unread_eq_nil_iff h).mpr he, List.tail_nil]
  | false => rw [Buf.unread_read h he, List.tail_cons]

/-- A read answers a written head of the unread region (R104). -/
theorem Buf.read_fst_of_head {v : Sample} (hv : (b.unread n).head? = some (some v)) : (b.read n).1 = v := by
  obtain ⟨he, -⟩ | ⟨he, u, d, hread, hu⟩ := Buf.read_cases n b
  · simp [(Buf.unread_eq_nil_iff h).mpr he] at hv
  · rw [Buf.unread_read h he, List.head?_cons, Option.some_inj] at hv
    rw [hread]
    exact (hu v hv).1

end Consistent

/-- Settles O22: BWR and BRD are `Buf.push` and `Buf.read`, whose effect on the unread region is said above. -/
theorem bufferRefinesABoundedQueue : Obligations.BufferRefinesABoundedQueue := by
  intro s v hf h
  have hlen : (s.buf.unread s.cfg.capacity).length ≤ s.cfg.capacity := by simpa using Buf.avail_le_of_consistent h
  constructor
  · refine ⟨_, exec_bwr hf (Buf.wr_lt_of_consistent h) v, Buf.consistent_push h v, ?_⟩
    rw [← rtake_concat_of_le (Buf.capacity_pos_of_consistent h) hlen]
    exact Buf.unread_push h v
  · refine ⟨_, exec_brd hf (Buf.readable_of_consistent h), Buf.consistent_read h, Buf.unread_read_tail h,
      fun u hu => ?_, fun hnil => ?_⟩
    · rw [State.respond_rsp, Buf.read_fst_of_head h hu]
      rfl
    · rw [State.respond_rsp, Buf.read_of_empty ((Buf.unread_eq_nil_iff h).mp hnil)]
      rfl

end Sys2Proof.Machine

/-! SUPPORT. Runs of writes and of reads (R58, R108, R109 (a)). -/

namespace Sys2Proof.Machine

/-! ### Running several commands -/

theorem runCommands_cons {i : Instr} {s t : State} (h : exec i s = .next t) (is : List Instr) :
    runCommands (i :: is) s = (runCommands is t).map fun r => (t.rsp.getD 0#64 :: r.1, r.2) := by
  simp only [runCommands, h]

/-- Two runs one after the other. -/
theorem runCommands_append {is js : List Instr} {s t u : State} {rs qs : List Response}
    (hi : runCommands is s = some (rs, t)) (hj : runCommands js t = some (qs, u)) :
    runCommands (is ++ js) s = some (rs ++ qs, u) := by
  induction is generalizing s rs with
  | nil =>
    cases hi
    exact hj
  | cons i is ih =>
    cases he : exec i s with
    | fault | refused => simp [runCommands, he] at hi
    | next s' =>
      rw [runCommands_cons he] at hi
      obtain ⟨⟨ps, t'⟩, hp, heq⟩ := Option.map_eq_some_iff.mp hi
      cases heq
      rw [List.cons_append, runCommands_cons he, ih hp]
      rfl

/-! ### Writes -/

/-- The buffer after the writes of `vs`. -/
def Buf.pushAll (n : Nat) (vs : List Sample) (b : Buf) : Buf := vs.foldl (fun b v => b.push n v) b

theorem Buf.pushAll_cons (n : Nat) (v : Sample) (vs : List Sample) (b : Buf) :
    b.pushAll n (v :: vs) = (b.push n v).pushAll n vs := rfl

theorem Buf.consistent_pushAll {n : Nat} {b : Buf} (h : b.consistent n = true) (vs : List Sample) :
    (b.pushAll n vs).consistent n = true := by
  induction vs generalizing b with
  | nil => exact h
  | cons v vs ih => exact ih (Buf.consistent_push h v)

/-- Writes append to the unread region and keep its last `N` samples (R108). -/
theorem Buf.unread_pushAll {n : Nat} {b : Buf} (h : b.consistent n = true) (vs : List Sample) :
    (b.pushAll n vs).unread n = (b.unread n ++ vs.map some).rtake n := by
  induction vs generalizing b with
  | nil =>
    rw [List.map_nil, List.append_nil, rtake_of_length_le (by simpa using Buf.avail_le_of_consistent h)]
    rfl
  | cons v vs ih =>
    rw [Buf.pushAll_cons, ih (Buf.consistent_push h v), Buf.unread_push h, rtake_rtake_append]
    simp

/-- Writes into an empty buffer leave the last `N` of them. -/
theorem Buf.unread_pushAll_of_empty {n : Nat} {b : Buf} (h : b.consistent n = true) (he : b.empty = true)
    (vs : List Sample) : (b.pushAll n vs).unread n = (vs.map some).rtake n := by
  rw [Buf.unread_pushAll h, (Buf.unread_eq_nil_iff h).mpr he, List.nil_append]

/-- A run of writes completes, answers 0 to each, and changes the buffer and the response only. -/
theorem runCommands_writes {s : State} (hf : s.flt.fault = false) (h : s.buf.consistent s.cfg.capacity = true)
    (vs : List Sample) : ∃ t, runCommands (vs.map .bwr) s = some (List.replicate vs.length 0#64, t) ∧
      t.cfg = s.cfg ∧ t.flt = s.flt ∧ t.buf = s.buf.pushAll s.cfg.capacity vs := by
  induction vs generalizing s with
  | nil => exact ⟨s, rfl, rfl, rfl, rfl⟩
  | cons v vs ih =>
    obtain ⟨t, hrun, hcfg, hflt, hbuf⟩ :=
      ih (s := State.respond { s with buf := s.buf.push s.cfg.capacity v } 0#64) hf (Buf.consistent_push h v)
    refine ⟨t, ?_, hcfg, hflt, hbuf⟩
    rw [List.map_cons, runCommands_cons (exec_bwr hf (Buf.wr_lt_of_consistent h) v), hrun]
    rfl

/-- Settles O23: the count is the length of the unread region, and both `full` and that region follow from it. -/
theorem capacityLaw : Obligations.CapacityLaw := by
  intro s vs hf h he
  obtain ⟨t, hrun, hcfg, -, hbuf⟩ := runCommands_writes hf h vs
  have hcons := Buf.consistent_pushAll h vs
  have hunread := Buf.unread_pushAll_of_empty h he vs
  rw [← hbuf] at hcons hunread
  have havail : t.buf.avail s.cfg.capacity = min vs.length s.cfg.capacity := by
    rw [← Buf.unread_length, hunread, List.rtake, List.length_drop, List.length_map]
    omega
  refine ⟨_, t, hrun, hcfg, havail, ?_, ?_⟩
  · rw [Buf.full_eq_decide_avail hcons, havail]
    simp
  · rw [hunread, List.rtake, List.length_map, List.map_drop]

/-! ### Reads -/

/-- Reading back an unread region of written samples answers them in order and empties the buffer. -/
theorem runCommands_reads {s : State} (hf : s.flt.fault = false) (h : s.buf.consistent s.cfg.capacity = true)
    {vs : List Sample} (hu : s.buf.unread s.cfg.capacity = vs.map some) :
    ∃ t, runCommands (List.replicate vs.length .brd) s = some (vs.map resSample, t) ∧ t.buf.empty = true := by
  induction vs generalizing s with
  | nil => exact ⟨s, rfl, (Buf.unread_eq_nil_iff h).mp hu⟩
  | cons v vs ih =>
    have hv : (s.buf.read s.cfg.capacity).1 = v := Buf.read_fst_of_head h (by rw [hu]; rfl)
    have htail : (s.buf.read s.cfg.capacity).2.unread s.cfg.capacity = vs.map some := by
      rw [Buf.unread_read_tail h, hu]
      rfl
    obtain ⟨t, hrun, hempty⟩ := ih
      (s := State.respond { s with buf := (s.buf.read s.cfg.capacity).2 } (resSample (s.buf.read s.cfg.capacity).1))
      hf (Buf.consistent_read h) htail
    refine ⟨t, ?_, hempty⟩
    rw [List.length_cons, List.replicate_succ, runCommands_cons (exec_brd hf (Buf.readable_of_consistent h)), hrun, hv]
    rfl

/-- Settles O24: at most `N` writes lose no sample, and the reads answer what the writes left unread. -/
theorem readsReturnTheWritesInOrder : Obligations.ReadsReturnTheWritesInOrder := by
  intro s vs hf h he hlen
  obtain ⟨t, hw, hcfg, hflt, hbuf⟩ := runCommands_writes hf h vs
  have hunread : t.buf.unread t.cfg.capacity = vs.map some := by
    rw [hbuf, hcfg, Buf.unread_pushAll_of_empty h he, rtake_of_length_le (by simpa using hlen)]
  obtain ⟨u, hr, hempty⟩ :=
    runCommands_reads (hflt ▸ hf) (by rw [hbuf, hcfg]; exact Buf.consistent_pushAll h vs) hunread
  exact ⟨u, runCommands_append hw hr, hempty⟩

end Sys2Proof.Machine

/-! SUPPORT. Runs of commands that touch neither the write side nor the checkpoint (R109 (b)). -/

namespace Sys2Proof.Machine

/-- `t` still has the configuration, the write side and the checkpoint that a save in `s` left, and its read cursor is
a cell: all that a return to the read point of `s` needs. -/
structure ReturnsTo (s t : State) : Prop where
  cfg : t.cfg = s.cfg
  store : t.buf.store = s.buf.store
  wr : t.buf.wr = s.buf.wr
  ckRd : t.buf.ckRd = s.buf.rd
  ckFull : t.buf.ckFull = s.buf.full
  ckv : t.buf.ckv = true
  rd_lt : t.buf.rd < t.cfg.capacity

theorem ReturnsTo.respond {s t : State} (h : ReturnsTo s t) (v : Response) : ReturnsTo s (t.respond v) :=
  ⟨h.cfg, h.store, h.wr, h.ckRd, h.ckFull, h.ckv, h.rd_lt⟩

/-- A save sets the checkpoint to the read point. -/
theorem ReturnsTo.saved {s : State} (hr : s.buf.rd < s.cfg.capacity) (v : Response) :
    ReturnsTo s (State.respond { s with buf := s.buf.save } v) :=
  ⟨rfl, rfl, rfl, rfl, rfl, rfl, hr⟩

/-- The buffer that the return restores is that of the save, but for draws and checkpoint. -/
theorem ReturnsTo.restore {s t : State} (h : ReturnsTo s t) :
    t.buf.restore = { s.buf.save with draws := t.buf.draws } := by
  obtain ⟨-, hstore, hwr, hrd, hfull, hckv, -⟩ := h
  simp [Buf.restore, Buf.save, hstore, hwr, hrd, hfull, hckv]

section ReplaySafe

variable {i : Instr} {s t : State} (hi : isReplaySafe i = true)
include hi

/-- A replay-safe command never stops while the read cursor is a cell. -/
theorem exec_of_isReplaySafe (hr : s.buf.rd < s.cfg.capacity) : ∃ t, exec i s = .next t := by
  cases hf : s.flt.fault with
  | true =>
    by_cases hs : i = .stat
    · subst hs
      exact ⟨_, rfl⟩
    · exact ⟨_, exec_faulted hf hs⟩
  | false =>
    cases i with
    | bclr | bwr | bsave | bret | cmp | clsf => cases hi
    | stat => exact ⟨_, rfl⟩
    | brd => exact ⟨_, exec_brd hf (Buf.readable_of_lt hr)⟩
    | bavl | ldi | lds | ldc | rdsc | rdbest | rdberr => exact ⟨_, whenLive_live hf _⟩
    | srst | srem | sget =>
      simp only [exec, execSrst, execSrem, execSget, whenLive_live hf]
      split <;> exact ⟨_, rfl⟩

/-- A replay-safe command moves the read cursor to cells only. -/
theorem Completes.rd_lt_of_isReplaySafe (h : Completes s i t) (hr : s.buf.rd < s.cfg.capacity) :
    t.buf.rd < t.cfg.capacity := by
  cases h with
  | brd => exact Buf.read_rd_lt (Nat.zero_lt_of_lt hr) hr
  | bclr | bwr | bsave | bret | bretFault | cmp | cmpUninit | cmpZero | clsf | clsfFault => cases hi
  | _ => exact hr

/-- A replay-safe command keeps the write side and the checkpoint. -/
theorem ReturnsTo.completes {s₀ : State} (h : ReturnsTo s₀ s) (hc : Completes s i t) : ReturnsTo s₀ t := by
  have hbwr : ∀ v, i ≠ .bwr v := by rintro v rfl; cases hi
  have hbclr : i ≠ .bclr := by rintro rfl; cases hi
  have hbsave : i ≠ .bsave := by rintro rfl; cases hi
  have hcmp : i ≠ .cmp := by rintro rfl; cases hi
  have hclsf : i ≠ .clsf := by rintro rfl; cases hi
  obtain ⟨hckRd, hckFull, hckv⟩ := hc.checkpoint hbsave hcmp hclsf
  exact {
    cfg := hc.cfg.trans h.cfg
    store := (hc.store hbwr).trans h.store
    wr := (hc.wr hbwr hbclr).trans h.wr
    ckRd := hckRd.trans h.ckRd
    ckFull := hckFull.trans h.ckFull
    ckv := hckv.trans h.ckv
    rd_lt := hc.rd_lt_of_isReplaySafe hi h.rd_lt }

end ReplaySafe

/-- A live command that raises no fault of its own leaves the block live (R181). -/
theorem Completes.live_of_neverFaults {i : Instr} {s t : State} (h : Completes s i t) (hi : neverFaults i = true)
    (hf : s.flt.fault = false) : t.flt.fault = false := by
  cases h with
  | bret | bretFault | srst | srstFault | srem | sremFault | sget | sgetFault => cases hi
  | cmp | cmpUninit | cmpZero | clsf | clsfFault => cases hi
  | _ => exact hf

/-- A run of replay-safe commands completes and keeps what the return needs; without a fault of their own the block
stays live. -/
theorem runCommands_replaySafe {cmds : List Instr} (hc : cmds.all isReplaySafe = true) {s₀ s : State}
    (h : ReturnsTo s₀ s) :
    ∃ rs u, runCommands cmds s = some (rs, u) ∧ ReturnsTo s₀ u ∧
      (cmds.all neverFaults = true → s.flt.fault = false → u.flt.fault = false) := by
  induction cmds generalizing s with
  | nil => exact ⟨[], s, rfl, h, fun _ hf => hf⟩
  | cons i is ih =>
    rw [List.all_cons, Bool.and_eq_true] at hc
    obtain ⟨hi, his⟩ := hc
    obtain ⟨t, hexec⟩ := exec_of_isReplaySafe hi h.rd_lt
    have ht : ReturnsTo s₀ t := by
      obtain ⟨-, hcomp⟩ | ⟨-, v, rfl⟩ := exec_next hexec
      · exact h.completes hi hcomp
      · exact h.respond v
    obtain ⟨rs, u, hrun, hu, hlive⟩ := ih his ht
    refine ⟨_, u, by rw [runCommands_cons hexec, hrun]; rfl, hu, fun hn hf => ?_⟩
    rw [List.all_cons, Bool.and_eq_true] at hn
    exact hlive hn.2 ((exec_live hf hexec).live_of_neverFaults hn.1 hf)

/-- Settles O25: the commands keep what the return needs, and the unread region depends on nothing else. -/
theorem replayRestoresTheReadPoint : Obligations.ReplayRestoresTheReadPoint := by
  intro s cmds hf hr hc
  obtain ⟨rs, u, hrun, hu, hlive⟩ := runCommands_replaySafe hc (ReturnsTo.saved hr 0#64)
  have hsave : runCommands (.bsave :: cmds) s = some (0#64 :: rs, u) := by
    rw [runCommands_cons (exec_bsave hf), hrun]
    rfl
  refine ⟨_, u, hsave, fun hn => hlive hn hf, fun hfu => ?_⟩
  have hret : runCommands [.bret] u = some ([0#64], State.respond { u with buf := u.buf.restore } 0#64) := by
    rw [runCommands_cons (exec_bret hfu hu.ckv)]
    rfl
  refine ⟨_, runCommands_append hsave hret, ?_⟩
  rw [hu.restore, State.respond_cfg, hu.cfg]
  exact ⟨rfl, rfl, rfl, rfl, rfl⟩

end Sys2Proof.Machine

/-! SUPPORT. The commands of SMP on a live block (R120 to R125): one rule per outcome of a command, and of `SmpReset`
and `SmpGet` behind them. -/

namespace Sys2Proof.Machine

section SamplerCommands

variable {s : State} (hf : s.flt.fault = false)
include hf

theorem exec_srst_of_ok {g : Smp} (hg : smpReset s.opr.itv s.opr.spd s.opr.cwr = .ok g) :
    exec .srst s = .next (State.respond { s with smp := g } (resRem g.rem)) := by
  rw [exec, execSrst, whenLive_live hf, hg]

theorem exec_srst_of_error {c : Cause} (hc : smpReset s.opr.itv s.opr.spd s.opr.cwr = .error c) :
    exec .srst s = .next (s.raise c (Instr.opcode .srst) 0) := by
  rw [exec, execSrst, whenLive_live hf, hc]

theorem exec_srem (hi : s.smp.sInit = true) : exec .srem s = .next (s.respond (resRem s.smp.rem)) :=
  (whenLive_live hf _).trans (if_pos hi)

theorem exec_srem_of_uninit (hi : s.smp.sInit = false) :
    exec .srem s = .next (s.raise .samplerUninit (Instr.opcode .srem) 0) :=
  (whenLive_live hf _).trans (if_neg (by simp [hi]))

theorem exec_sget (hi : s.smp.sInit = true) :
    exec .sget s = .next (State.respond { s with smp := s.smp.get.2 } (resBit s.smp.get.1)) :=
  (whenLive_live hf _).trans (if_pos hi)

theorem exec_sget_of_uninit (hi : s.smp.sInit = false) :
    exec .sget s = .next (s.raise .samplerUninit (Instr.opcode .sget) 0) :=
  (whenLive_live hf _).trans (if_neg (by simp [hi]))

end SamplerCommands

/-! ### The operand loads -/

/-- The command word of LDC as R122 writes it. -/
theorem encode_ldc (c : CodeWord) : 0x22#8 ++ 0#32 ++ c = encode (.ldc c) := by
  have hz : c.zeroExtend 64 = 0#32 ++ c := BitVec.setWidth_eq_append (by decide)
  simp only [encode, Instr.opcode, Instr.operand, hz]
  exact BitVec.append_assoc

/-- Settles O32: each load is gated only, and its word is its encoding. -/
theorem operandLoadsWriteTheirRegister : Obligations.OperandLoadsWriteTheirRegister := by
  intro s v c hf
  exact ⟨decode_encode (.ldi v), whenLive_live hf _, decode_encode (.lds v), whenLive_live hf _,
    encode_ldc c ▸ decode_encode (.ldc c), whenLive_live hf _⟩

/-! ### The normalising loop -/

theorem normalise_zero (l : Nat) : normalise l 0#32 = (0, 0#32) := by
  induction l with
  | zero => rfl
  | succ l ih => simpa [normalise] using ih

/-- The loop with `l` steps to go, on a code word whose low `32 - l` bits have been shifted in: it ends at the top bit
of what stands above them. -/
theorem normalise_of_shifted {l d : Nat} (hl : l ≤ 32) (hd : d ≠ 0) {c : CodeWord} (hc : c.toNat = d * 2 ^ (32 - l)) :
    (normalise l c).1 = 1 + Nat.log2 d ∧ (normalise l c).2.toNat = d * 2 ^ (32 - (normalise l c).1) ∧
    (normalise l c).2.msb = true := by
  induction l generalizing c with
  | zero =>
    have := c.isLt
    omega
  | succ l ih =>
    have hpow : 2 ^ (32 - l) = 2 * 2 ^ (32 - (l + 1)) := by rw [← Nat.pow_succ']; congr 1; omega
    rw [normalise]
    split
    next hm =>
      have hfull : (2 : Nat) ^ 31 = 2 ^ l * 2 ^ (32 - (l + 1)) := by rw [← Nat.pow_add]; congr 1; omega
      have hlow : 2 ^ l ≤ d := by
        have hge := BitVec.toNat_ge_of_msb_true hm
        rw [hc] at hge
        exact Nat.le_of_mul_le_mul_right (hfull ▸ hge) (Nat.two_pow_pos _)
      have hhigh : d < 2 ^ (l + 1) := by
        have hlt := hc ▸ c.isLt
        have h32 : (2 : Nat) ^ 32 = 2 ^ (l + 1) * 2 ^ (32 - (l + 1)) := by rw [← Nat.pow_add]; congr 1; omega
        exact Nat.lt_of_mul_lt_mul_right (h32 ▸ hlt)
      have hlog : Nat.log2 d = l := (Nat.log2_eq_iff hd).mpr ⟨hlow, hhigh⟩
      exact ⟨by rw [hlog, Nat.add_comm], hc, hm⟩
    next hm =>
      have hlt := BitVec.toNat_lt_of_msb_false (by simpa using hm)
      refine ih (by omega) ?_
      rw [BitVec.toNat_shiftLeft, Nat.shiftLeft_eq, Nat.mod_eq_of_lt (by omega), hc, hpow]
      ring

/-- Settles O33: at the start nothing has been shifted in. -/
theorem normaliseFindsTheSignificantLength : Obligations.NormaliseFindsTheSignificantLength := by
  intro c
  refine ⟨?_, fun hc => normalise_of_shifted (Nat.le_refl 32) (fun h0 => hc (BitVec.eq_of_toNat_eq h0)) (by simp)⟩
  rintro rfl
  exact normalise_zero 32

/-! ### `SmpReset` -/

/-- The pattern of a value that is no NaN has nothing free in it (log 9). -/
theorem Fp.Nonneg.bits64_eq {v : Fp} (h : v.Nonneg) (nan nan' : BitVec 52) : bits64 nan v = bits64 nan' v := by
  rcases h with rfl | ⟨m, -, rfl⟩
  · rfl
  · rfl

section Reset

variable {itv spd : F64}

theorem smpReset_of_invalid (h : (validTiming (fmt64 itv) && validTiming (fmt64 spd)) = false) (code : CodeWord) :
    smpReset itv spd code = .error .badTiming := by
  simp [smpReset, h]

theorem smpReset_of_overflow (h : (validTiming (fmt64 itv) && validTiming (fmt64 spd)) = true) {code : CodeWord}
    (hb : flt (sampleBudget itv spd (normalise 32 code).1) (cvt (2 ^ 32)) = false) :
    smpReset itv spd code = .error .countOverflow := by
  simp only [smpReset, h, hb, if_true, Bool.false_eq_true, if_false]

/-- A reset with a valid timing and a budget that fits commits the whole sampler state, whose patterns have nothing
free in them. -/
theorem smpReset_of_fits (h : (validTiming (fmt64 itv) && validTiming (fmt64 spd)) = true) {code : CodeWord}
    (hb : flt (sampleBudget itv spd (normalise 32 code).1) (cvt (2 ^ 32)) = true) (nan : BitVec 52) :
    smpReset itv spd code = .ok {
      wcode := (normalise 32 code).2
      wlen := (normalise 32 code).1
      spdit := bits64 nan (samplesPerDit itv spd)
      dps := bits64 nan (fdiv (cvt 1) (samplesPerDit itv spd))
      fracAcc := 0#64
      intAcc := 0#32
      rem := BitVec.ofNat 32 (ftrunc (sampleBudget itv spd (normalise 32 code).1))
      sInit := true } := by
  obtain ⟨hi, hs⟩ := Bool.and_eq_true_iff.mp h
  have hn := samplesPerDit_nonneg hi hs
  rw [hn.bits64_eq nan (Config.freeNan itv spd), hn.reciprocal.bits64_eq nan (Config.freeNan itv spd)]
  simp only [smpReset, h, hb, if_true]

end Reset

/-- The integer part of a value below the integer `i` is below `i`; outside the domain of `ftrunc` it is 0. -/
theorem ftrunc_lt {a : Fp} {i : Nat} (h0 : 0 < i) (hi : i < 2 ^ 53) (h : flt a (cvt i) = true) : ftrunc a < i := by
  rw [cvt_of_lt hi] at h
  cases a with
  | nan => exact h0
  | inf neg => exact h0
  | fin neg m =>
    cases neg with
    | true => exact h0
    | false => exact Nat.div_lt_of_lt_mul (by simpa [flt_fin] using h)

/-- The timing precondition of R123 in the spec's own terms. -/
theorem validTimings_iff (a b : Fp) :
    (validTiming a && validTiming b) = true ↔ finite a = true ∧ fgt0 a = true ∧ finite b = true ∧ fgt0 b = true := by
  simp [validTiming, and_assoc]

/-- Settles O34: the three outcomes of `SmpReset`, told apart by its two checks. -/
theorem srstResetsTheSamplerOrFaults : Obligations.SrstResetsTheSamplerOrFaults := by
  refine ⟨by decide, fun s hf => ⟨fun ht => ?_, fun ht hb => ?_, fun ht hb nan => ?_⟩⟩
  · rw [← validTimings_iff, Bool.not_eq_true] at ht
    exact exec_srst_of_error hf (smpReset_of_invalid ht _)
  · rw [← validTimings_iff] at ht
    exact exec_srst_of_error hf (smpReset_of_overflow ht hb)
  · rw [← validTimings_iff] at ht
    refine ⟨_, ?_, exec_srst_of_ok hf (smpReset_of_fits ht hb nan)⟩
    exact Nat.mod_eq_of_lt (ftrunc_lt (by decide) (by decide) hb)

/-- Zero dits of a finite length have the budget `+0` (R119). -/
theorem sampleBudget_zero {itv spd : F64} (hn : (samplesPerDit itv spd).Nonneg)
    (hfin : finite (samplesPerDit itv spd) = true) : sampleBudget itv spd 0 = .fin false 0 := by
  rw [sampleBudget, cvt_of_lt (by decide)]
  rcases hn with h | ⟨m, -, h⟩
  · rw [h] at hfin
    cases hfin
  · simp [h, fmul, Fp.round, roundMag, roundEven, Fp.limit_pos]

/-- Settles O35: the empty symbol has the length 0, and its budget `+0` fits. -/
theorem emptySymbolHasNoSamples : Obligations.EmptySymbolHasNoSamples := by
  intro s hf hc hi hi0 hs hs0 hfin
  have ht := (validTimings_iff _ _).mpr ⟨hi, hi0, hs, hs0⟩
  obtain ⟨hvi, hvs⟩ := Bool.and_eq_true_iff.mp ht
  have hlen : (normalise 32 s.opr.cwr).1 = 0 := by rw [hc, normalise_zero]
  have hbudget := sampleBudget_zero (samplesPerDit_nonneg hvi hvs) hfin
  have hfits : flt (sampleBudget s.opr.itv s.opr.spd (normalise 32 s.opr.cwr).1) (cvt (2 ^ 32)) = true := by
    rw [hlen, hbudget, cvt_of_lt (by decide), flt_fin, decide_eq_true_eq]
    exact Nat.mul_pos Fp.unit_pos (by decide)
  have hrem : BitVec.ofNat 32 (ftrunc (sampleBudget s.opr.itv s.opr.spd (normalise 32 s.opr.cwr).1)) = 0#32 := by
    rw [hlen, hbudget, ftrunc, Nat.zero_div]
  refine ⟨_, exec_srst_of_ok hf (smpReset_of_fits ht hfits 0#52), rfl, hrem, hlen, ?_, rfl⟩
  rw [hrem]
  rfl

/-! ### SREM and SGET -/

/-- Settles O36: one rule of SREM per clause. -/
theorem sremReturnsTheCountdown : Obligations.SremReturnsTheCountdown :=
  ⟨by decide, fun _ hf => ⟨exec_srem hf, exec_srem_of_uninit hf⟩⟩

/-- A call that emits answers the top bit and advances by at most one dit (R125). -/
theorem Smp.get_of_remaining {g : Smp} (h : g.rem ≠ 0#32) :
    g.get = (g.wcode.msb, { g with
      fracAcc := bits64 (Config.freeNan g.fracAcc g.dps) g.nextFrac
      intAcc := if g.carry then g.intAcc + 1#32 else g.intAcc
      wcode := if g.carry then g.wcode <<< 1 else g.wcode
      rem := g.rem - 1#32 }) := if_neg h

/-- Settles O37: SGET answers `SmpGet()`, whose two branches are told apart by the countdown. -/
theorem sgetEmitsAndAdvances : Obligations.SgetEmitsAndAdvances := by
  refine ⟨by decide, fun s hf => ⟨exec_sget_of_uninit hf, fun hi hz => ?_, fun hi hz => ?_⟩⟩
  · rw [exec_sget hf hi, Smp.get_of_exhausted hz]
    rfl
  · refine ⟨Config.freeNan s.smp.fracAcc s.smp.dps, Config.freeCarry s.smp.fracAcc s.smp.dps, ?_⟩
    rw [exec_sget hf hi, Smp.get_of_remaining hz]
    rfl

end Sys2Proof.Machine

/-! SUPPORT. Runs of SGET (R127): what they answer is the sampler's sequence, and a faulted block answers 0. -/

namespace Sys2Proof.Machine

/-- The sequence of a sampler is its first sample followed by the sequence of the sampler after it. -/
theorem Smp.map_output_range_succ (g : Smp) (k : Nat) :
    (List.range (k + 1)).map (fun j => resBit (g.output j)) =
      resBit g.get.1 :: (List.range k).map fun j => resBit (g.get.2.output j) := by
  rw [List.range_succ_eq_map, List.map_cons, List.map_map]
  rfl

/-- `k` SGETs on an initialised sampler answer the first `k` samples of its sequence and change nothing else but the
response. -/
theorem runCommands_sgets {s : State} (hf : s.flt.fault = false) (hi : s.smp.sInit = true) (k : Nat) :
    ∃ t, runCommands (List.replicate k .sget) s =
        some ((List.range k).map fun j => resBit (s.smp.output j), t) ∧
      t = { s with smp := Smp.after k s.smp, rsp := t.rsp } := by
  induction k generalizing s with
  | zero => exact ⟨s, rfl, rfl⟩
  | succ k ih =>
    obtain ⟨t, hrun, ht⟩ := ih (s := State.respond { s with smp := s.smp.get.2 } (resBit s.smp.get.1)) hf
      ((Smp.get_sInit _).trans hi)
    refine ⟨t, ?_, ht⟩
    rw [List.replicate_succ, runCommands_cons (exec_sget hf hi), hrun, Smp.map_output_range_succ]
    rfl

/-- Settles O38: after `k` SGETs the sampler is `Smp.after k`. -/
theorem sgetCountsDownToZero : Obligations.SgetCountsDownToZero := by
  intro s k hf hi
  obtain ⟨t, hrun, ht⟩ := runCommands_sgets hf hi k
  refine ⟨_, t, hrun, ?_⟩
  rw [ht]
  exact ⟨Smp.after_rem_toNat k s.smp, (Smp.after_sInit k s.smp).trans hi, rfl⟩

/-- R173: a faulted block answers 0 to every command but STAT. -/
theorem runCommands_of_faulted {is : List Instr} (h : ∀ i ∈ is, i ≠ .stat) {s : State} (hf : s.flt.fault = true) :
    ∃ t, runCommands is s = some (List.replicate is.length 0#64, t) := by
  induction is generalizing s with
  | nil => exact ⟨s, rfl⟩
  | cons i is ih =>
    obtain ⟨hi, his⟩ := List.forall_mem_cons.mp h
    obtain ⟨t, hrun⟩ := ih his (s := s.respond 0#64) hf
    refine ⟨t, ?_⟩
    rw [runCommands_cons (exec_faulted hf hi), hrun]
    rfl

/-- The responses of SRST and of `k` SGETs after it, as the outcome of the sampler reset gives them. -/
def sequenceResponses (k : Nat) : Except Cause Smp → List Response
  | .ok g => resRem g.rem :: (List.range k).map fun j => resBit (g.output j)
  | .error _ => 0#64 :: List.replicate k 0#64

theorem runCommands_srst_sgets {s : State} (hf : s.flt.fault = false) (k : Nat) :
    ∃ t, runCommands (.srst :: List.replicate k .sget) s =
      some (sequenceResponses k (smpReset s.opr.itv s.opr.spd s.opr.cwr), t) := by
  cases hg : smpReset s.opr.itv s.opr.spd s.opr.cwr with
  | ok g =>
    obtain ⟨-, -, -, hi, -⟩ := smpReset_ok hg
    obtain ⟨t, hrun, -⟩ := runCommands_sgets (s := State.respond { s with smp := g } (resRem g.rem)) hf hi k
    refine ⟨t, ?_⟩
    rw [runCommands_cons (exec_srst_of_ok hf hg), hrun]
    rfl
  | error c =>
    obtain ⟨t, hrun⟩ := runCommands_of_faulted (is := List.replicate k .sget)
      (fun i hi => by simp [List.eq_of_mem_replicate hi]) (s := s.raise c (Instr.opcode .srst) 0) rfl
    refine ⟨t, ?_⟩
    rw [runCommands_cons (exec_srst_of_error hf hg), hrun, List.length_replicate]
    rfl

/-- Settles O39: the responses are a function of the outcome of `SmpReset`, which reads the operand registers only. -/
theorem sampleSequenceDependsOnOperandsOnly : Obligations.SampleSequenceDependsOnOperandsOnly := by
  intro s s' k hf hf' hopr
  obtain ⟨t, hrun⟩ := runCommands_srst_sgets hf k
  obtain ⟨t', hrun'⟩ := runCommands_srst_sgets hf' k
  exact ⟨_, t, t', hrun, hopr ▸ hrun'⟩

end Sys2Proof.Machine

/-! SUPPORT. The commands of CLS on a live block (R150 to R156): one rule per outcome of a command. -/

namespace Sys2Proof.Machine

section ClassifierCommands

variable {s : State} (hf : s.flt.fault = false)
include hf

theorem exec_cmp (hi : s.smp.sInit = true) (hz : s.smp.rem ≠ 0#32) (hr : s.buf.readable s.cfg.capacity = true) :
    exec .cmp s = .next ((runCompare s.clearUndr).2.respond (runCompare s.clearUndr).2.cls.score) :=
  (whenLive_live hf _).trans <| (if_neg (by simp [hi])).trans <| (if_neg hz).trans (if_pos hr)

theorem exec_cmp_of_uninit (hi : s.smp.sInit = false) :
    exec .cmp s = .next (s.raise .samplerUninit (Instr.opcode .cmp) 0) :=
  (whenLive_live hf _).trans (if_pos (by simp [hi]))

theorem exec_cmp_of_no_samples (hi : s.smp.sInit = true) (hz : s.smp.rem = 0#32) :
    exec .cmp s = .next (s.raise .zeroCount (Instr.opcode .cmp) 0) :=
  (whenLive_live hf _).trans <| (if_neg (by simp [hi])).trans (if_pos hz)

theorem exec_clsf_of_raised {c : Cause} {i : Nat} {t : State} (hs : s.searchAll = .raised c i t) :
    exec .clsf s = .next (t.raise c (Instr.opcode .clsf) i) := by
  simp [exec, execClsf, whenLive_live hf, hs, SearchEnd.inStore, clsfState]

theorem exec_rdsc : exec .rdsc s = .next (s.respond s.cls.score) := whenLive_live hf _

theorem exec_rdbest : exec .rdbest s = .next (s.respond (resBest s.cls)) := whenLive_live hf _

theorem exec_rdberr : exec .rdberr s = .next (s.respond s.cls.besterr) := whenLive_live hf _

end ClassifierCommands

/-! ### The fields of the best entry's response word (R155) -/

theorem resBest_index (r : Results) : (resBest r).extractLsb' 0 16 = r.bestidx :=
  BitVec.extractLsb'_append_eq_right

theorem resBest_symbol (r : Results) : (resBest r).extractLsb' 16 8 = r.bestsym := by
  rw [resBest, BitVec.extractLsb'_append_eq_of_le (by decide)]
  exact BitVec.extractLsb'_append_eq_right

theorem resBest_valid (r : Results) : (resBest r).getLsbD 24 = r.bestv := by
  have hbit : (bit 1 r.bestv).getLsbD 0 = r.bestv := by cases r.bestv <;> rfl
  simp only [resBest, BitVec.getLsbD_append]
  exact hbit

theorem resBest_zeros (r : Results) : (resBest r).extractLsb' 25 39 = 0#39 := by
  rw [resBest, BitVec.extractLsb'_append_eq_of_le (by decide), BitVec.extractLsb'_append_eq_of_le (by decide)]
  exact BitVec.extractLsb'_append_eq_left

/-! ### The statements about the checks of CMP and the result reads -/

/-- Settles O40: the two fault rules of CMP are the statement. -/
theorem cmpChecksBeforeWriting : Obligations.CmpChecksBeforeWriting :=
  fun _ hf => ⟨exec_cmp_of_uninit hf, exec_cmp_of_no_samples hf⟩

/-- Settles O48: the rule of RDSC is the statement. -/
theorem rdscReturnsTheScore : Obligations.RdscReturnsTheScore := ⟨by decide, fun _ hf => exec_rdsc hf⟩

/-- Settles O49: the response is `resBest`, one lemma per field. -/
theorem rdbestReturnsTheBestEntry : Obligations.RdbestReturnsTheBestEntry :=
  ⟨by decide, fun s hf => ⟨_, exec_rdbest hf, resBest_index s.cls, resBest_symbol s.cls, resBest_valid s.cls,
    resBest_zeros s.cls⟩⟩

/-- Settles O50: the rule of RDBERR is the statement. -/
theorem rdberrReturnsTheBestError : Obligations.RdberrReturnsTheBestError := ⟨by decide, fun _ hf => exec_rdberr hf⟩

end Sys2Proof.Machine

/-! SUPPORT. A completed CMP (R150): the state it leaves, and its score as what BRD and SGET would answer. -/

namespace Sys2Proof.Machine

/-- Settles O41: `runCompare_eq` from the state whose `UNDR` CMP has cleared. -/
theorem cmpRestoresBufferAndConsumesSampler : Obligations.CmpRestoresBufferAndConsumesSampler := by
  intro s hf hi hz hr
  obtain ⟨d, hd⟩ := runCompare_eq s.clearUndr
  refine ⟨d, _, (runCompare s.clearUndr).2.cls.score, ?_, rfl, Smp.after_rem_self s.smp, (Smp.after_sInit ..).trans hi⟩
  rw [exec_cmp hf hi hz (Buf.readable_of_lt hr), hd]
  rfl

/-! ### The answers of BRD and SGET as a compare sums them -/

theorem responseSum_cons (v : Sample) (x : Bool) (bs gs : List Response) :
    responseSum (resSample v :: bs) (resBit x :: gs) = squaredDiff v x + responseSum bs gs := by
  have hv : (resSample v).setWidth 8 = v := by simp [resSample]
  have hx : (resBit x).getLsbD 0 = x := by cases x <;> rfl
  simp only [responseSum, List.zipWith_cons_cons, List.sum_cons, hv, hx]

/-- The checkpoint has no part in a read: what a save overwrites is all that it can differ in. -/
theorem Buf.read_save (n : Nat) (b : Buf) :
    (b.save.read n).1 = (b.read n).1 ∧ (b.save.read n).2.save = (b.read n).2.save := by
  have hempty : b.save.empty = b.empty := rfl
  cases he : b.empty with
  | true =>
    rw [Buf.read_of_empty he, Buf.read_of_empty (hempty.trans he)]
    exact ⟨rfl, rfl⟩
  | false =>
    cases hv : Memory.read b.rd b.store with
    | some v =>
      rw [Buf.read_of_written he hv, Buf.read_of_written (b := b.save) (hempty.trans he) hv]
      exact ⟨rfl, rfl⟩
    | none =>
      rw [Buf.read_of_unwritten he hv, Buf.read_of_unwritten (b := b.save) (hempty.trans he) hv]
      exact ⟨rfl, rfl⟩

/-- The compared sum does not depend on the checkpoint. -/
theorem comparePairs_congr {b b' : Buf} (h : b.save = b'.save) (n count sum : Nat) (g : Smp) :
    (comparePairs n count sum b g).1 = (comparePairs n count sum b' g).1 := by
  induction count generalizing sum b b' g with
  | zero => rfl
  | succ k ih =>
    obtain ⟨hv, hb⟩ := Buf.read_save n b
    obtain ⟨hv', hb'⟩ := Buf.read_save n b'
    have hread : (b.read n).1 = (b'.read n).1 := by rw [← hv, h, hv']
    rw [comparePairs, comparePairs, hread]
    exact ih (by rw [← hb, h, hb']) _ _

/-- `k` BRDs answer what a compare of `k` pairs takes from the buffer, whatever the sampler. -/
theorem runCommands_brds {s : State} (hf : s.flt.fault = false) (hr : s.buf.rd < s.cfg.capacity) (k : Nat) :
    ∃ bs u, runCommands (List.replicate k .brd) s = some (bs, u) ∧
      ∀ sum g, (comparePairs s.cfg.capacity k sum s.buf g).1 =
        sum + responseSum bs ((List.range k).map fun j => resBit (g.output j)) := by
  induction k generalizing s with
  | zero => exact ⟨[], s, rfl, fun _ _ => rfl⟩
  | succ k ih =>
    obtain ⟨bs, u, hrun, hsum⟩ := ih
      (s := State.respond { s with buf := (s.buf.read s.cfg.capacity).2 } (resSample (s.buf.read s.cfg.capacity).1))
      hf (Buf.read_rd_lt (Nat.zero_lt_of_lt hr) hr)
    refine ⟨resSample (s.buf.read s.cfg.capacity).1 :: bs, u, ?_, fun sum g => ?_⟩
    · rw [List.replicate_succ, runCommands_cons (exec_brd hf (Buf.readable_of_lt hr)), hrun]
      rfl
    · rw [comparePairs, Smp.map_output_range_succ, responseSum_cons, ← Nat.add_assoc]
      exact hsum _ _

/-- The response of a completed CMP is the pattern of its score, in which nothing is free. -/
theorem exec_cmp_score {s : State} (hf : s.flt.fault = false) (hi : s.smp.sInit = true) (hz : s.smp.rem ≠ 0#32)
    (hr : s.buf.readable s.cfg.capacity = true) (nan : BitVec 52) :
    ∃ t, exec .cmp s = .next t ∧ t.rsp = some (bits64 nan (runCompare s.clearUndr).1) := by
  refine ⟨_, exec_cmp hf hi hz hr, ?_⟩
  rw [State.respond_rsp, runCompare_score]
  exact congrArg some ((runCompare_fst_nonneg (s := s.clearUndr) hz).bits64_eq _ nan)

/-- Settles O42: the answers of BRD and SGET sum to what the compare loop does, and over a known buffer that sum is
`pairSum`. -/
theorem cmpScoresTheUnreadSamples : Obligations.CmpScoresTheUnreadSamples := by
  constructor
  · intro s hf hi hz hr nan
    obtain ⟨bs, u, hbrds, hsum⟩ := runCommands_brds hf hr s.smp.rem.toNat
    obtain ⟨v, hsgets, -⟩ := runCommands_sgets hf hi s.smp.rem.toNat
    obtain ⟨t, hexec, hrsp⟩ := exec_cmp_score hf hi hz (Buf.readable_of_lt hr) nan
    refine ⟨bs, u, _, v, t, hbrds, hsgets, hexec, hrsp.trans ?_⟩
    have hscore := (comparePairs_congr (b := s.buf.save) (b' := s.buf) rfl _ _ 0 s.smp).trans (hsum 0 s.smp)
    rw [Nat.zero_add] at hscore
    exact congrArg (fun sum => some (bits64 nan (scoreOf sum s.smp.rem.toNat))) hscore
  · intro s hf hi hz hc hw nan
    have hb : s.buf.Known s.cfg.capacity := ⟨hc, hw⟩
    obtain ⟨t, hexec, hrsp⟩ := exec_cmp_score hf hi hz hb.readable nan
    rw [runCompare_fst_of_known (s := s.clearUndr) hb] at hrsp
    exact ⟨t, hexec, hrsp⟩

end Sys2Proof.Machine

/-! SUPPORT. A score is zero only for equal pairs (R150 (c)): rounding and the integer square root keep powers of two as
lower bounds. -/

namespace Sys2Proof.Machine

theorem le_roundEven (n d : Nat) : n / d ≤ roundEven n d := by
  simp only [roundEven]
  split
  · omega
  · split <;> omega

/-- A quotient of at least a power of two rounds to at least that power. -/
theorem two_pow_le_roundMag {n d j : Nat} (h : 2 ^ j ≤ n / d) : 2 ^ j ≤ roundMag n d := by
  have h0 : n / d ≠ 0 := (Nat.two_pow_pos j |>.trans_le h).ne'
  have hj : j ≤ Nat.log2 (n / d) := (Nat.le_log2 h0).mpr h
  have hdvd := Nat.pow_dvd_pow 2 (Nat.sub_le (Nat.log2 (n / d)) 52)
  simp only [roundMag]
  calc 2 ^ j ≤ 2 ^ Nat.log2 (n / d) := Nat.pow_le_pow_right Nat.two_pos hj
    _ = 2 ^ Nat.log2 (n / d) / 2 ^ (Nat.log2 (n / d) - 52) * 2 ^ (Nat.log2 (n / d) - 52) :=
      (Nat.div_mul_cancel hdvd).symm
    _ ≤ n / d / 2 ^ (Nat.log2 (n / d) - 52) * 2 ^ (Nat.log2 (n / d) - 52) :=
      Nat.mul_le_mul_right _ (Nat.div_le_div_right (Nat.log2_self_le h0))
    _ ≤ _ := Nat.mul_le_mul_right _ (Nat.div_div_eq_div_mul n d _ ▸ le_roundEven ..)

theorem Fp.round_eq_fin {neg neg' : Bool} {n d m : Nat} (h : Fp.round neg n d = .fin neg' m) : m = roundMag n d := by
  simp only [Fp.round] at h
  split at h
  · cases h
    rfl
  · cases h

theorem le_isqrtFrom (n k r : Nat) : r ≤ isqrtFrom n k r := by
  induction k generalizing r with
  | zero => exact Nat.le_refl r
  | succ k ih =>
    rw [isqrtFrom]
    split
    · exact (Nat.le_add_right r _).trans (ih _)
    · exact ih r

/-- The first bit of the integer square root is found at half the bits of the number. -/
theorem two_pow_le_isqrt {n j : Nat} (h : 2 ^ (2 * j) ≤ n) : 2 ^ j ≤ isqrt n := by
  have h0 : n ≠ 0 := (Nat.two_pow_pos _ |>.trans_le h).ne'
  have hj : 2 * j ≤ Nat.log2 n := (Nat.le_log2 h0).mpr h
  have hfirst : 2 ^ (Nat.log2 n / 2) * 2 ^ (Nat.log2 n / 2) ≤ n := by
    rw [← Nat.pow_add]
    exact (Nat.pow_le_pow_right Nat.two_pos (by omega)).trans (Nat.log2_self_le h0)
  rw [isqrt, isqrtFrom, Nat.zero_add, if_pos hfirst]
  exact (Nat.pow_le_pow_right Nat.two_pos (by omega)).trans (le_isqrtFrom ..)

theorem two_pow_le_of_fsqrt {mag j r : Nat} (h : 2 ^ (2 * j) ≤ Fp.unit * mag)
    (hr : fsqrt (.fin false mag) = .fin false r) : 2 ^ j ≤ r := by
  have h0 : mag ≠ 0 := by
    rintro rfl
    exact absurd h (Nat.not_le.mpr (Nat.two_pow_pos _))
  obtain ⟨p, hp, hroot⟩ := fsqrt_of_ne_zero h0
  rw [Fp.round_eq_fin (hroot.symm.trans hr)]
  exact two_pow_le_roundMag (hp ▸ two_pow_le_isqrt h)

/-- The unit is a power of two above every count of a compare. -/
theorem Fp.unit_eq_large_two_pow : ∃ k, 32 ≤ k ∧ Fp.unit = 2 ^ k := ⟨1074, by decide, by unfold Fp.unit; rfl⟩

/-- The root of a sum that is not zero is at least one. -/
theorem unit_le_of_fsqrt_cvt {sum r : Nat} (h0 : sum ≠ 0) (hs : sum < 2 ^ 53)
    (hr : fsqrt (cvt sum) = .fin false r) : Fp.unit ≤ r := by
  obtain ⟨k, -, hu⟩ := Fp.unit_eq_two_pow
  rw [cvt_of_lt hs] at hr
  rw [hu]
  refine two_pow_le_of_fsqrt ?_ hr
  rw [hu, Nat.two_mul, Nat.pow_add]
  exact Nat.mul_le_mul_left _ (Nat.le_mul_of_pos_right _ (Nat.pos_of_ne_zero h0))

/-- A value of at least one over a count does not round to zero. -/
theorem fdiv_count_ne_zero {r count m : Nat} (hr : Fp.unit ≤ r) (h0 : count ≠ 0) (hc : count < 2 ^ 32)
    (h : fdiv (.fin false r) (.fin false (Fp.unit * count)) = .fin false m) : m ≠ 0 := by
  obtain ⟨k, hk, hu⟩ := Fp.unit_eq_large_two_pow
  have hcr : count ≤ r := hc.le.trans ((Nat.pow_le_pow_right Nat.two_pos hk).trans (hu ▸ hr))
  simp only [fdiv, Fp.unit_mul_ne_zero h0, if_false] at h
  rw [Fp.round_eq_fin h]
  refine Nat.one_le_iff_ne_zero.mp (two_pow_le_roundMag (j := 0) ?_)
  rw [Nat.mul_div_mul_left _ _ Fp.unit_pos]
  exact Nat.div_pos hcr (Nat.pos_of_ne_zero h0)

theorem scoreOf_zero {count : Nat} (h0 : count ≠ 0) (hc : count < 2 ^ 53) : scoreOf 0 count = .fin false 0 := by
  have hround (d : Nat) : Fp.round false 0 d = .fin false 0 := by
    simp [Fp.round, roundMag, roundEven, Fp.limit_pos]
  rw [scoreOf, cvt_of_lt hc, cvt_of_lt (by decide)]
  simp [fsqrt, fdiv, Fp.unit_mul_ne_zero h0, hround]

theorem scoreOf_ne_zero {sum count m : Nat} (h0 : sum ≠ 0) (hs : sum < 2 ^ 53) (hc0 : count ≠ 0)
    (hc : count < 2 ^ 32) (h : scoreOf sum count = .fin false m) : m ≠ 0 := by
  rw [scoreOf, cvt_of_lt (hc.trans (by decide))] at h
  obtain hinf | ⟨r, -, hr⟩ := (Fp.Nonneg.cvt sum).fsqrt
  · rw [hinf] at h
    cases h
  · rw [hr] at h
    exact fdiv_count_ne_zero (unit_le_of_fsqrt_cvt h0 hs hr) hc0 hc h

/-- A pair adds nothing exactly when the sample is the sampler's bit (R151). -/
theorem squaredDiff_eq_zero_iff (b : Sample) (g : Bool) : squaredDiff b g = 0 ↔ b.toNat = if g then 1 else 0 := by
  have hsq (d : Int) : (d * d).toNat = 0 ↔ d = 0 := by
    rw [Int.toNat_eq_zero, (mul_self_nonneg d).ge_iff_eq', mul_self_eq_zero]
  rw [squaredDiff, hsq]
  cases g <;> simp [sub_eq_zero]

theorem pairSum_eq_zero_iff (n : Nat) (b : Buf) (g : Smp) (count : Nat) :
    pairSum n b g count = 0 ↔ ∀ k, k < count → (b.sampleAt n k).toNat = if g.output k then 1 else 0 := by
  simp [pairSum, List.sum_eq_zero_iff, squaredDiff_eq_zero_iff]

/-- Settles O43: the score is finite (`scoreOf_fin`), and only the sum 0 has the root 0. -/
theorem scoreIsFiniteAndZeroOnlyForEqualPairs : Obligations.ScoreIsFiniteAndZeroOnlyForEqualPairs := by
  refine ⟨fun sum count hs hc0 hc => ?_, fun n b g count hc => ⟨pairSum_lt n b g hc, pairSum_eq_zero_iff n b g count⟩⟩
  have hc0 : count ≠ 0 := Nat.one_le_iff_ne_zero.mp hc0
  have hc53 : count < 2 ^ 53 := hc.trans (by decide)
  obtain ⟨m, hm⟩ := scoreOf_fin hs hc0 hc53
  refine ⟨m, hm, fun hz => ?_, fun hz => ?_⟩
  · by_contra hne
    exact scoreOf_ne_zero hne (hs.trans (by decide)) hc0 hc hm hz
  · rw [hz, scoreOf_zero hc0 hc53] at hm
    cases hm
    rfl

end Sys2Proof.Machine

/-! SUPPORT. Where a search stops (R153, R184): the entries that can be compared are passed, and the first that cannot
raises its fault. -/

namespace Sys2Proof.Machine

/-! ### One entry -/

/-- With these operands the entry's sampler reset completes with samples, so that the entry can be compared. -/
def Operands.Compares (o : Operands) (e : DictEntry) : Prop :=
  ∃ g, smpReset o.itv o.spd e.code = .ok g ∧ g.rem ≠ 0#32

/-- With these operands the entry raises `c` and leaves the sampler `g`: its reset fails, or gives no samples. -/
def Operands.Raises (o : Operands) (e : DictEntry) (c : Cause) (g : Smp) : Prop :=
  smpReset o.itv o.spd e.code = .error c ∨ (smpReset o.itv o.spd e.code = .ok g ∧ g.rem = 0#32 ∧ c = .zeroCount)

section OneEntry

variable {s : State} {e : DictEntry} (es : List DictEntry) (i : Nat) (best : Best)

theorem search_cons_of_error {c : Cause} (h : smpReset s.opr.itv s.opr.spd e.code = .error c) :
    search (e :: es) i best s = .raised c i s := by
  simp [search, h]

theorem search_cons_of_no_samples {g : Smp} (h : smpReset s.opr.itv s.opr.spd e.code = .ok g) (hz : g.rem = 0#32) :
    search (e :: es) i best s = .raised .zeroCount i { s with smp := g } := by
  simp [search, h, hz]

/-- An entry that cannot be compared raises a fault. -/
theorem search_cons_of_not_compares (h : ¬ s.opr.Compares e) : ∃ c t, search (e :: es) i best s = .raised c i t := by
  cases hr : smpReset s.opr.itv s.opr.spd e.code with
  | error c => exact ⟨c, s, search_cons_of_error es i best hr⟩
  | ok g =>
    have hz : g.rem = 0#32 := by
      by_contra hz
      exact h ⟨g, hr, hz⟩
    exact ⟨_, _, search_cons_of_no_samples es i best hr hz⟩

end OneEntry

/-! ### The entries before the one that faults -/

/-- The search passes over entries that can be compared. -/
theorem search_append_of_compares {pre : List DictEntry} {s : State} (hpre : ∀ e ∈ pre, s.opr.Compares e)
    (hr : s.buf.rd < s.cfg.capacity) (es : List DictEntry) (i : Nat) (best : Best) :
    ∃ best' t, search (pre ++ es) i best s = search es (i + pre.length) best' t ∧ SearchFrame s t := by
  induction pre generalizing i best s with
  | nil => exact ⟨best, s, rfl, .refl s⟩
  | cons e pre ih =>
    obtain ⟨⟨g, hg, hz⟩, htail⟩ := List.forall_mem_cons.mp hpre
    have hframe := runCompare_frame s g
    obtain ⟨best', t, hs, ht⟩ := ih (by rw [hframe.opr]; exact htail) (by rw [hframe.rd, hframe.cfg]; exact hr)
      (i + 1) (best.offer (runCompare { s with smp := g }).1 i e.sym)
    refine ⟨best', t, ?_, hframe.trans ht⟩
    rw [List.cons_append, search_cons_of_samples hg hz (Buf.readable_of_lt hr), hs, List.length_cons,
      Nat.add_right_comm, Nat.add_assoc]

/-- A search that raises a fault does so at the first entry that cannot be compared, with the cause of that entry. -/
theorem search_raised {es : List DictEntry} {i j : Nat} {best : Best} {s t : State} {c : Cause}
    (h : search es i best s = .raised c j t) :
    ∃ pre e post, es = pre ++ e :: post ∧ j = i + pre.length ∧ (∀ e' ∈ pre, s.opr.Compares e') ∧
      s.opr.Raises e c t.smp := by
  induction es generalizing i best s with
  | nil => cases h
  | cons e es ih =>
    obtain ⟨c', hc, he⟩ | ⟨g, hg, ⟨hz, he⟩ | ⟨-, -, he⟩ | ⟨hz, -, he⟩⟩ := search_cons e es i best s
    · cases he.symm.trans h
      exact ⟨[], e, es, rfl, rfl, nofun, .inl hc⟩
    · cases he.symm.trans h
      exact ⟨[], e, es, rfl, rfl, nofun, .inr ⟨hg, hz, rfl⟩⟩
    · cases he.symm.trans h
    · obtain ⟨pre, e', post, rfl, rfl, hpre, hraise⟩ := ih (he.symm.trans h)
      refine ⟨e :: pre, e', post, rfl, ?_, List.forall_mem_cons.mpr ⟨⟨g, hg, hz⟩, hpre⟩, hraise⟩
      rw [List.length_cons, Nat.add_right_comm, Nat.add_assoc]

/-! ### The statements about CLSF -/

/-- Settles O44: the search over no entries completes with the start of the running minimum. -/
theorem clsfOnAnEmptyDictionary : Obligations.ClsfOnAnEmptyDictionary := by
  intro s hf hd
  have hs : s.searchAll = .completed Best.start s.clearUndr := by rw [State.searchAll, hd, search]
  have hbest : resBest (s.clearUndr.storeBest Best.start).cls = 0#64 := by simp [resBest, Best.start, bit]
  rw [exec, execClsf_of_completed hf hs, hbest]
  rfl

/-- Settles O46: the search raises at its first entry, before any compare. -/
theorem clsfFaultsAtTheFirstEntry : Obligations.ClsfFaultsAtTheFirstEntry := by
  intro s e es hf hd
  have herror (c : Cause) (hc : smpReset s.opr.itv s.opr.spd e.code = .error c) :
      s.searchAll = .raised c 0 s.clearUndr := by
    rw [State.searchAll, hd]
    exact search_cons_of_error (s := s.clearUndr) es 0 Best.start hc
  refine ⟨fun hc => exec_clsf_of_raised hf (herror _ hc), fun hc => exec_clsf_of_raised hf (herror _ hc),
    fun g hg hz => ?_⟩
  have hempty : s.searchAll = .raised .zeroCount 0 { s.clearUndr with smp := g } := by
    rw [State.searchAll, hd]
    exact search_cons_of_no_samples (s := s.clearUndr) es 0 Best.start hg hz
  exact exec_clsf_of_raised hf hempty

/-- An index of the dictionary fits `FIDX` (R14, R32). -/
theorem fidx_toNat {cfg : Config} {i : Nat} (h : i < cfg.dict.length) : (BitVec.ofNat 16 i).toNat = i := by
  have := cfg.dict_le
  rw [BitVec.toNat_ofNat, Nat.mod_eq_of_lt (by omega)]

/-- A live CLSF faults at the first entry that cannot be compared. -/
theorem exec_clsf_of_not_compares {s : State} {i : Nat} {e : DictEntry} (hf : s.flt.fault = false)
    (hr : s.buf.rd < s.cfg.capacity) (he : s.cfg.dict[i]? = some e) (hne : ¬ s.opr.Compares e)
    (hpre : ∀ j e', j < i → s.cfg.dict[j]? = some e' → s.opr.Compares e') :
    ∃ c t, exec .clsf s = .next (State.raise t c (Instr.opcode .clsf) i) := by
  obtain ⟨hi, rfl⟩ := List.getElem?_eq_some_iff.mp he
  have hbefore : ∀ e' ∈ s.cfg.dict.take i, s.clearUndr.opr.Compares e' := by
    intro e' he'
    obtain ⟨j, hj, hje⟩ := List.mem_take_iff_getElem.mp he'
    exact hpre j e' (by omega) (List.getElem?_eq_some_iff.mpr ⟨by omega, hje⟩)
  obtain ⟨best, u, hpass, hu⟩ :=
    search_append_of_compares hbefore hr (s.cfg.dict[i] :: s.cfg.dict.drop (i + 1)) 0 Best.start
  obtain ⟨c, t, hraise⟩ := search_cons_of_not_compares (s := u) (e := s.cfg.dict[i])
    (s.cfg.dict.drop (i + 1)) i best (by rw [hu.opr]; exact hne)
  refine ⟨c, t, exec_clsf_of_raised hf ?_⟩
  rw [List.getElem_cons_drop, List.take_append_drop, List.length_take_of_le hi.le, Nat.zero_add] at hpass
  rw [List.getElem_cons_drop] at hraise
  exact hpass.trans hraise

/-- Settles O47: the first faulting entry by `search_append_of_compares`, what a faulting search keeps by its frame, and
its entry by `search_raised`. -/
theorem clsfFaultKeepsBufferAndResults : Obligations.ClsfFaultKeepsBufferAndResults := by
  constructor
  · intro s i e hf hr he hz hpre
    obtain ⟨hi, -⟩ := List.getElem?_eq_some_iff.mp he
    obtain ⟨c, t, hexec⟩ := exec_clsf_of_not_compares hf hr he (fun ⟨g, hg, hne⟩ => hne (hz g hg)) hpre
    exact ⟨_, hexec, rfl, fidx_toNat hi⟩
  · intro s t hf hexec ht
    obtain ⟨best, u, -, hu, rfl⟩ | ⟨c, j, u, hs, hu, hj, hc, hbad, rfl⟩ := execClsf_next hf hexec
    · have hlive : u.flt.fault = false := (congrArg FaultRegs.fault hu.flt).trans hf
      exact absurd (hlive.symm.trans ht) (by decide)
    · obtain ⟨pre, e, post, hdict, hpos, hpre, hraise⟩ := search_raised hs
      have hidx : (BitVec.ofNat 16 j).toNat = j := fidx_toNat hj
      rw [Nat.zero_add] at hpos
      refine ⟨hu.store, hu.rd, hu.wr, hu.full, hu.opr, hu.bestv, hu.bestidx, hu.bestsym, hu.besterr, rfl,
        hidx.trans_lt hj, ?cause, ?badTiming, rfl, ?before, e, ?entry, ?raises⟩
      case cause =>
        rcases hc with rfl | rfl | rfl
        · exact .inl rfl
        · exact .inr (.inl rfl)
        · exact .inr (.inr rfl)
      case badTiming =>
        rcases hc with rfl | rfl | rfl
        · rw [State.raise_flt, hbad rfl]
          exact fun _ => rfl
        · nofun
        · nofun
      case before =>
        intro k e' hk he'
        have hk : k < pre.length := hpos ▸ hidx ▸ hk
        rw [hdict, List.getElem?_append_left hk] at he'
        exact hpre e' (List.mem_of_getElem? he')
      case entry =>
        rw [State.raise_flt, hidx, hdict, hpos, List.getElem?_append_right (Nat.le_refl _), Nat.sub_self]
        rfl
      case raises =>
        obtain herr | ⟨hg, hz, rfl⟩ := hraise
        · exact .inl ⟨c, herr, rfl⟩
        · exact .inr ⟨hg, hz, rfl⟩

end Sys2Proof.Machine

/-! SUPPORT. Every command is answered (R157, R210): from a state with the invariant no command stops, and each leaves a
response and the host's list. -/

namespace Sys2Proof.Machine

/-- What a command word leaves (R172): a response, and the host's other actions. -/
def State.Answers (s t : State) : Prop := t.rsp.isSome = true ∧ t.host = s.host

theorem State.respond_answers (s : State) (v : Response) : s.Answers (s.respond v) := ⟨rfl, rfl⟩

theorem Completes.answers {i : Instr} {s t : State} (h : Completes s i t) : s.Answers t := by
  cases h with
  | clsf _ _ _ hu => exact ⟨rfl, hu.host⟩
  | clsfFault _ _ _ _ hu => exact ⟨rfl, hu.host⟩
  | _ => exact ⟨rfl, rfl⟩

/-- Every command word that completes is answered. -/
theorem transact_answers {w : CommandWord} {s t : State} (h : transact w s = .next t) : s.Answers t := by
  obtain ⟨-, v, rfl⟩ | ⟨-, rfl⟩ | ⟨-, i, -, hc⟩ := transact_next h
  · exact s.respond_answers v
  · exact ⟨rfl, rfl⟩
  · exact hc.answers

/-- While the cursors are cells no command stops (R51). -/
theorem exec_total {s : State} (hr : s.buf.rd < s.cfg.capacity) (hw : s.buf.wr < s.cfg.capacity) (i : Instr) :
    ∃ t, exec i s = .next t := by
  by_cases hi : isReplaySafe i = true
  · exact exec_of_isReplaySafe hi hr
  cases hf : s.flt.fault with
  | true => exact ⟨_, exec_faulted hf fun h => hi (h ▸ rfl)⟩
  | false =>
    have hread : s.buf.readable s.cfg.capacity = true := Buf.readable_of_lt hr
    cases i with
    | bclr => exact ⟨_, exec_bclr hf⟩
    | bwr v => exact ⟨_, exec_bwr hf hw v⟩
    | bsave => exact ⟨_, exec_bsave hf⟩
    | bret =>
      cases hv : s.buf.ckv with
      | true => exact ⟨_, exec_bret hf hv⟩
      | false => exact ⟨_, exec_bret_of_no_checkpoint hf hv⟩
    | cmp =>
      cases hs : s.smp.sInit with
      | false => exact ⟨_, exec_cmp_of_uninit hf hs⟩
      | true =>
        by_cases hz : s.smp.rem = 0#32
        · exact ⟨_, exec_cmp_of_no_samples hf hs hz⟩
        · exact ⟨_, exec_cmp hf hs hz hread⟩
    | clsf => exact ⟨_, (whenLive_live hf _).trans (if_pos (by rw [hread, Bool.true_or]))⟩
    | _ => exact absurd rfl hi

/-- An illegal word never stops (R75, R173). -/
theorem execIllegal_total (w : CommandWord) (s : State) : ∃ t, execIllegal w s = .next t := by
  cases hf : s.flt.fault with
  | false => exact ⟨_, execIllegal_live hf w⟩
  | true =>
    unfold execIllegal
    split
    · exact ⟨_, rfl⟩
    · exact ⟨_, whenLive_faulted hf _⟩

theorem transact_total {s : State} (hr : s.buf.rd < s.cfg.capacity) (hw : s.buf.wr < s.cfg.capacity) (w : CommandWord) :
    ∃ t, transact w s = .next t := by
  unfold transact
  split
  · exact exec_total hr hw _
  · exact execIllegal_total w s

/-- Settles O53: a command word is answered (`transact_answers`), and the other steps stop nowhere. -/
theorem everyCommandIsAnswered : Obligations.EveryCommandIsAnswered := by
  intro s h
  cases hh : s.host with
  | nil => exact ⟨s, by rw [step, hh], nofun⟩
  | cons a rest =>
    cases a with
    | reset => exact ⟨_, step_reset hh, nofun⟩
    | command w =>
      obtain ⟨t, ht⟩ := transact_total (s := { s with host := rest }) h.rd_lt h.wr_lt w
      obtain ⟨hrsp, hhost⟩ := transact_answers ht
      refine ⟨t, by rw [step, hh]; exact ht, fun w' rest' heq => ⟨hrsp, ?_⟩⟩
      cases heq
      exact hhost

end Sys2Proof.Machine

/-! SUPPORT. The transaction of the command port (R172), and what it does while the block is
faulted (R173, R185, R186). -/

namespace Sys2Proof

/-- The command a word decodes to is STAT exactly when the word has STAT's opcode (R73). -/
theorem eq_stat_iff_of_decode {w : CommandWord} {i : Instr} (h : decode w = .command i) :
    i = .stat ↔ opOf w = Instr.opcode .stat := by
  obtain ⟨hc, -⟩ := decode_eq_command_iff.mp h
  constructor
  · rintro rfl
    exact (opcode_of_commandOf hc).symm
  · intro hop
    rw [hop] at hc
    exact (Option.some.inj hc).symm

/-- A word of a known opcode with a reserved operand bit set is illegal (R74, R75). -/
theorem decode_of_reserved_bits {w : CommandWord} {i : Instr} (hc : commandOf (opOf w) (argOf w) = some i)
    (hz : argOf w &&& i.format.mustBeZero ≠ 0#64) : decode w = .illegal .reservedOperandBit := by
  simp only [decode, hc, if_neg hz]

end Sys2Proof

namespace Sys2Proof.Machine

/-- A step that takes a command word is the transaction of that word (R172). -/
theorem step_of_command {s : State} {w : CommandWord} {rest : List HostAction} (hh : s.host = .command w :: rest) :
    step s = transact w { s with host := rest } := by
  simp only [step, hh, perform]

theorem transact_of_decode {w : CommandWord} {i : Instr} (hd : decode w = .command i) (s : State) :
    transact w s = exec i s := by
  simp only [transact, hd]

theorem transact_of_illegal {w : CommandWord} {r : Illegal} (hd : decode w = .illegal r) (s : State) :
    transact w s = execIllegal w s := by
  simp only [transact, hd]

/-- Settles O6: the step is the transaction of the word, which runs the command the word decodes to. -/
theorem stepRunsTheDecodedCommand : Obligations.StepRunsTheDecodedCommand :=
  fun _ _ _ _ hh hd => (step_of_command hh).trans (transact_of_decode hd _)

section Faulted

variable {s : State} (hf : s.flt.fault = true) {w : CommandWord}
include hf

/-- While `FAULT = 1` a word with STAT's opcode executes as STAT, legal or not (R173). -/
theorem transact_faulted_of_stat (hop : opOf w = Instr.opcode .stat) : transact w s = execStat s := by
  cases hd : decode w with
  | command i =>
    obtain rfl := (eq_stat_iff_of_decode hd).mpr hop
    exact transact_of_decode hd s
  | illegal r =>
    rw [transact_of_illegal hd, execIllegal, hf, hop]
    rfl

/-- While `FAULT = 1` a word of any other opcode, legal or not, only answers 0 (R173). -/
theorem transact_faulted_of_ne_stat (hop : opOf w ≠ Instr.opcode .stat) :
    transact w s = .next (s.respond 0#64) := by
  cases hd : decode w with
  | command i =>
    rw [transact_of_decode hd]
    exact exec_faulted hf (mt (eq_stat_iff_of_decode hd).mp hop)
  | illegal r =>
    rw [transact_of_illegal hd, execIllegal, if_neg (by simp [hop])]
    exact whenLive_faulted hf _

/-- While `FAULT = 1` a command word can only respond (R185, R186). -/
theorem transact_faulted_next {t : State} (h : transact w s = .next t) : ∃ v, t = s.respond v := by
  obtain ⟨-, hv⟩ | ⟨hl, -⟩ | ⟨hl, -⟩ := transact_next h
  · exact hv
  · cases hf.symm.trans hl
  · cases hf.symm.trans hl

end Faulted

/-- Settles O8: the word has STAT's opcode or another, and the host's list plays no part in the transaction. -/
theorem whileFaultedOnlyStatExecutes : Obligations.WhileFaultedOnlyStatExecutes :=
  fun s _ rest hh hf =>
    ⟨fun hop => (step_of_command hh).trans (transact_faulted_of_stat (s := { s with host := rest }) hf hop),
      fun hop => (step_of_command hh).trans (transact_faulted_of_ne_stat (s := { s with host := rest }) hf hop)⟩

/-- Settles O10: the next state is the old one with a response (`transact_faulted_next`). -/
theorem faultRecordStaysUntilReset : Obligations.FaultRecordStaysUntilReset := by
  intro s t w rest hf hh h
  obtain ⟨v, rfl⟩ := transact_faulted_next (s := { s with host := rest }) hf ((step_of_command hh).symm.trans h)
  exact ⟨rfl, rfl⟩

end Sys2Proof.Machine

/-! SUPPORT. The response word of STAT (R170), field by field, over the layout of STATUS (R33). -/

namespace Sys2Proof.Machine

theorem getLsbD_append_bit_zero {n : Nat} (x : BitVec n) (b : Bool) : (x ++ bit 1 b).getLsbD 0 = b := by
  rw [BitVec.getLsbD_append]
  cases b <;> rfl

theorem getLsbD_append_bit_succ {n : Nat} (x : BitVec n) (b : Bool) (k : Nat) :
    (x ++ bit 1 b).getLsbD (k + 1) = x.getLsbD k := by
  simp [BitVec.getLsbD_append]

theorem extractLsb'_append_bit {n : Nat} (x : BitVec n) (b : Bool) (k w : Nat) :
    (x ++ bit 1 b).extractLsb' (k + 1) w = x.extractLsb' k w :=
  BitVec.extractLsb'_append_eq_of_le (Nat.le_add_left 1 k)

/-- Bits 15:0 of the response of STAT are STATUS (R170). -/
theorem resStat_status (s : State) : (resStat s).extractLsb' 0 16 = s.status := BitVec.extractLsb'_append_eq_right

theorem resStat_fop (s : State) : (resStat s).extractLsb' 16 8 = s.flt.fop := by
  rw [resStat, BitVec.extractLsb'_append_eq_of_le (by decide)]
  exact BitVec.extractLsb'_append_eq_right

theorem resStat_fidx (s : State) : (resStat s).extractLsb' 24 16 = s.flt.fidx := by
  rw [resStat, BitVec.extractLsb'_append_eq_of_le (by decide), BitVec.extractLsb'_append_eq_of_le (by decide)]
  exact BitVec.extractLsb'_append_eq_right

theorem resStat_zeros (s : State) : (resStat s).extractLsb' 40 24 = 0#24 := by
  rw [resStat, BitVec.extractLsb'_append_eq_of_le (by decide), BitVec.extractLsb'_append_eq_of_le (by decide)]
  exact BitVec.extractLsb'_append_eq_left

theorem resStat_getLsbD (s : State) {k : Nat} (hk : k < 16) : (resStat s).getLsbD k = s.status.getLsbD k := by
  rw [← resStat_status s, BitVec.getLsbD_extractLsb', Nat.zero_add, decide_eq_true hk, Bool.true_and]

theorem resStat_extractLsb' (s : State) {k w : Nat} (h : k + w ≤ 16) :
    (resStat s).extractLsb' k w = s.status.extractLsb' k w := by
  rw [← resStat_status s, BitVec.extractLsb'_extractLsb'_of_le h]

/-- Bits 7:0 of STATUS, bit 0 first (R33). -/
def State.statusFlags (s : State) : List Bool :=
  [s.buf.full, s.buf.empty, s.buf.ckv, s.smp.sInit, s.smp.done, s.cls.undr, s.cls.bestv, s.flt.fault]

theorem State.status_getLsbD (s : State) (k : Fin 8) : s.status.getLsbD k = s.statusFlags[k] := by
  rw [State.status]
  fin_cases k <;> simp only [getLsbD_append_bit_succ, getLsbD_append_bit_zero] <;> rfl

theorem resStat_flag (s : State) (k : Fin 8) : (resStat s).getLsbD k = s.statusFlags[k] :=
  (resStat_getLsbD s (by omega)).trans (s.status_getLsbD k)

theorem resStat_cause (s : State) : (resStat s).extractLsb' 8 4 = s.flt.cause := by
  rw [resStat_extractLsb' s (by decide)]
  simp only [State.status, extractLsb'_append_bit]
  exact BitVec.extractLsb'_append_eq_right

theorem resStat_status_zeros (s : State) : (resStat s).extractLsb' 12 4 = 0#4 := by
  rw [resStat_extractLsb' s (by decide)]
  simp only [State.status, extractLsb'_append_bit]
  exact BitVec.extractLsb'_append_eq_left

/-- The word of STAT with a nonzero operand is illegal: format Z reserves every operand bit (R71, R73). -/
theorem decode_stat_operand {a : BitVec 64} (ha : a ≠ 0#64) :
    decode (0x01#8 ++ a) = .illegal .reservedOperandBit := by
  have hop : opOf (0x01#8 ++ a) = Instr.opcode .stat := BitVec.extractLsb'_append_eq_left
  have harg : argOf (0x01#8 ++ a) = a := BitVec.extractLsb'_append_eq_right
  refine decode_of_reserved_bits (i := .stat) (hop ▸ rfl) fun hz => ha ?_
  rw [harg] at hz
  exact BitVec.and_allOnes.symm.trans hz

/-- Settles O13: the response is `resStat`, field by field; the record reads 0 by `State.Inv.record_zero`. -/
theorem statReturnsStatusAndFaultRecord : Obligations.StatReturnsStatusAndFaultRecord := by
  refine ⟨decode_encode .stat, fun _ => decode_stat_operand, fun s => ⟨resStat s, rfl, resStat_flag s 0,
    resStat_flag s 1, resStat_flag s 2, resStat_flag s 3, resStat_flag s 4, resStat_flag s 5, resStat_flag s 6,
    resStat_flag s 7, resStat_cause s, resStat_status_zeros s, resStat_fop s, resStat_fidx s, resStat_zeros s,
    fun h hf => ?_⟩⟩
  obtain ⟨-, hfop, hfidx⟩ := h.record_zero hf
  exact ⟨(resStat_fop s).trans hfop, (resStat_fidx s).trans hfidx⟩

end Sys2Proof.Machine

/-! SUPPORT. The faults of the commands (R180 to R184): which command raises which cause, that fault entry is all that a
faulting command other than CLSF does, and the idle step. -/

namespace Sys2Proof.Machine

/-- The causes of each command (R181). A command that is not listed raises none; `Completes.raised` and
`execClsf_raised` tie the table to what the commands do. -/
inductive CanRaise : Instr → Cause → Prop
  | bret : CanRaise .bret .noCheckpoint
  | srst {c : Cause} (hc : c = .badTiming ∨ c = .countOverflow) : CanRaise .srst c
  | srem : CanRaise .srem .samplerUninit
  | sget : CanRaise .sget .samplerUninit
  | cmp {c : Cause} (hc : c = .samplerUninit ∨ c = .zeroCount) : CanRaise .cmp c
  | clsf {c : Cause} (hc : c = .badTiming ∨ c = .countOverflow ∨ c = .zeroCount) : CanRaise .clsf c

/-- A faulting command other than CLSF enters its fault from the state it was given, with index 0 (R182, R184). -/
theorem Completes.raised {i : Instr} {s t : State} (h : Completes s i t) (hf : s.flt.fault = false)
    (ht : t.flt.fault = true) (hl : i ≠ .clsf) : ∃ c, CanRaise i c ∧ t = s.raise c i.opcode 0 := by
  cases h with
  | bretFault => exact ⟨_, .bret, rfl⟩
  | srstFault c hc => exact ⟨c, .srst ((smpReset_error hc).imp And.left And.left), rfl⟩
  | sremFault => exact ⟨_, .srem, rfl⟩
  | sgetFault => exact ⟨_, .sget, rfl⟩
  | cmpUninit => exact ⟨_, .cmp (.inl rfl), rfl⟩
  | cmpZero => exact ⟨_, .cmp (.inr rfl), rfl⟩
  | clsf | clsfFault => exact absurd rfl hl
  | _ => cases hf.symm.trans ht

/-- A faulting CLSF enters its fault from the state its search has left. -/
theorem execClsf_raised {s t : State} (hf : s.flt.fault = false) (h : execClsf s = .next t)
    (ht : t.flt.fault = true) : ∃ c j u, CanRaise .clsf c ∧ t = State.raise u c (Instr.opcode .clsf) j := by
  obtain ⟨best, u, -, hu, rfl⟩ | ⟨c, j, u, -, -, -, hc, -, rfl⟩ := execClsf_next hf h
  · have hlive : u.flt.fault = false := (congrArg FaultRegs.fault hu.flt).trans hf
    cases hlive.symm.trans ht
  · exact ⟨c, j, u, .clsf hc, rfl⟩

/-- The cause that a faulting command records is one of its own (R181). -/
theorem exec_cause {i : Instr} {s t : State} (hf : s.flt.fault = false) (h : exec i s = .next t)
    (ht : t.flt.fault = true) : ∃ c, CanRaise i c ∧ t.flt.cause = c.code := by
  by_cases hl : i = .clsf
  · subst hl
    obtain ⟨c, j, u, hc, rfl⟩ := execClsf_raised hf h ht
    exact ⟨c, hc, rfl⟩
  · obtain ⟨c, hc, rfl⟩ := (exec_live hf h).raised hf ht hl
    exact ⟨c, hc, rfl⟩

/-- Settles O59: `Completes.raised` gives the whole next state, which is fault entry. -/
theorem faultsArePrecise : Obligations.FaultsArePrecise := by
  intro i s t hf h ht hl
  obtain ⟨c, -, rfl⟩ := (exec_live hf h).raised hf ht hl
  exact ⟨rfl, rfl, rfl⟩

/-- Settles O60: the table `CanRaise`, row by row, with the code of each cause. -/
theorem causesOfEachCommand : Obligations.CausesOfEachCommand := by
  intro i s t hf h ht
  obtain ⟨c, hc, hcause⟩ := exec_cause hf h ht
  rw [hcause]
  have code {a : Cause} (e : c = a) : c.code = a.code := congrArg Cause.code e
  cases hc with
  | bret => exact .inl ⟨rfl, rfl⟩
  | srst hc => exact .inr (.inl ⟨rfl, hc.imp code code⟩)
  | srem => exact .inr (.inr (.inl ⟨.inl rfl, rfl⟩))
  | sget => exact .inr (.inr (.inl ⟨.inr rfl, rfl⟩))
  | cmp hc => exact .inr (.inr (.inr (.inl ⟨rfl, hc.imp code code⟩)))
  | clsf hc => exact .inr (.inr (.inr (.inr ⟨rfl, hc.imp code (.imp code code)⟩)))

/-- Settles O9: with no action on the host's list a step takes its idle branch (R195). -/
theorem idlenessChangesNothing : Obligations.IdlenessChangesNothing := by
  intro s h
  rw [step, h]

end Sys2Proof.Machine

/-! SUPPORT. Writes between a save and a return (R204): behind the read point that the return restores, only the store
and the write cursor have moved. -/

namespace Sys2Proof.Machine

/-! ### Writes seen from a fixed read point -/

/-- What BWR does to the write side (R102 steps 1 and 3); `rd` and `full` stay. -/
def Buf.put (n : Nat) (b : Buf) (v : Sample) : Buf :=
  { b with store := Memory.write b.wr v b.store, wr := advance n b.wr }

/-- The buffer that a blind restore finds after the writes of `vs`. -/
def Buf.putAll (n : Nat) (vs : List Sample) (b : Buf) : Buf := vs.foldl (Buf.put n) b

theorem Buf.putAll_cons (n : Nat) (v : Sample) (vs : List Sample) (b : Buf) :
    b.putAll n (v :: vs) = (b.put n v).putAll n vs := rfl

theorem Buf.putAll_append (n : Nat) (vs ws : List Sample) (b : Buf) :
    b.putAll n (vs ++ ws) = (b.putAll n vs).putAll n ws := List.foldl_append

@[simp] theorem Buf.putAll_rd (n : Nat) (vs : List Sample) (b : Buf) : (b.putAll n vs).rd = b.rd := by
  induction vs generalizing b with
  | nil => rfl
  | cons v vs ih => exact ih (b.put n v)

@[simp] theorem Buf.putAll_full (n : Nat) (vs : List Sample) (b : Buf) : (b.putAll n vs).full = b.full := by
  induction vs generalizing b with
  | nil => rfl
  | cons v vs ih => exact ih (b.put n v)

theorem Buf.putAll_wr {n : Nat} {b : Buf} (hw : b.wr < n) (vs : List Sample) :
    (b.putAll n vs).wr = (b.wr + vs.length) % n := by
  induction vs generalizing b with
  | nil => exact (Nat.mod_eq_of_lt hw).symm
  | cons v vs ih =>
    have hwr : (b.put n v).wr = (b.wr + 1) % n := rfl
    rw [Buf.putAll_cons, ih (hwr ▸ Nat.mod_lt _ (Nat.zero_lt_of_lt hw)), hwr, Nat.mod_add_mod, List.length_cons,
      Nat.add_assoc, Nat.add_comm 1]

section Consistent

variable {n : Nat} {b : Buf} (h : b.consistent n = true)
include h

theorem Buf.full_of_avail_lt (ha : b.avail n < n) : b.full = false := by
  rw [Buf.full_eq_decide_avail h, decide_eq_false_iff_not]
  exact Nat.not_le.mpr ha

/-- A write that leaves a free cell moves the write side only (R102). -/
theorem Buf.put_eq_push {v : Sample} (ha : b.avail n + 1 < n) : b.put n v = b.push n v := by
  have hf := Buf.full_of_avail_lt h (Nat.lt_of_succ_lt ha)
  have hrd : (b.push n v).rd = b.rd := by simp [hf]
  have hfull : (b.push n v).full = b.full :=
    (Buf.full_of_avail_lt (Buf.consistent_push h v) (Buf.avail_push_of_not_full h hf v ▸ ha)).trans hf.symm
  calc b.put n v = { b.push n v with rd := b.rd, full := b.full } := rfl
    _ = b.push n v := by rw [← hrd, ← hfull]

/-- While a cell stays free the buffer behind the saved read point is the one that was written (R204 (a)). -/
theorem Buf.putAll_eq_pushAll {vs : List Sample} (ha : b.avail n + vs.length < n) :
    b.putAll n vs = b.pushAll n vs := by
  induction vs generalizing b with
  | nil => rfl
  | cons v vs ih =>
    rw [List.length_cons] at ha
    have hf := Buf.full_of_avail_lt h (by omega)
    rw [Buf.putAll_cons, Buf.pushAll_cons, Buf.put_eq_push h (by omega)]
    refine ih (Buf.consistent_push h v) ?_
    rw [Buf.avail_push_of_not_full h hf]
    omega

/-- Writes that leave a cell free append to the saved samples (R204 (a)). -/
theorem Buf.unread_putAll {vs : List Sample} (ha : b.avail n + vs.length < n) :
    (b.putAll n vs).unread n = b.unread n ++ vs.map some := by
  rw [Buf.putAll_eq_pushAll h ha, Buf.unread_pushAll h, rtake_of_length_le]
  simpa using ha.le

/-- Writes that fill every free cell bring the write cursor back to the saved read point (R204 (b)). -/
theorem Buf.empty_putAll {vs : List Sample} (hf : b.full = false) (ha : b.avail n + vs.length = n) :
    (b.putAll n vs).empty = true := by
  have hwr : (b.putAll n vs).wr = b.rd := calc
    (b.putAll n vs).wr = (b.wr + vs.length) % n := Buf.putAll_wr (Buf.wr_lt_of_consistent h) vs
    _ = (b.rd + (b.avail n + vs.length)) % n := by rw [← Buf.rd_add_avail h hf, Nat.mod_add_mod, Nat.add_assoc]
    _ = b.rd := by rw [ha, Nat.add_mod_right, Nat.mod_eq_of_lt (Buf.rd_lt_of_consistent h)]
  simp [Buf.empty_iff, hwr, hf]

end Consistent

/-! ### Runs of reads, writes and harmless commands -/

/-- The state whose read point a return restores after the writes of `vs`. -/
def State.putAll (vs : List Sample) (s : State) : State := { s with buf := s.buf.putAll s.cfg.capacity vs }

theorem State.putAll_append (vs ws : List Sample) (s : State) :
    s.putAll (vs ++ ws) = (s.putAll vs).putAll ws := by
  simp only [State.putAll, Buf.putAll_append]

theorem writtenSamples_of_isReplaySafe {i : Instr} (hi : isReplaySafe i = true) : writtenSamples [i] = [] := by
  cases i with
  | bwr => cases hi
  | _ => rfl

theorem writtenSamples_cons (i : Instr) (is : List Instr) :
    writtenSamples (i :: is) = writtenSamples [i] ++ writtenSamples is := by
  cases i <;> rfl

/-- The commands of R204 are the writes and those of R109. -/
theorem bwr_or_isReplaySafe {i : Instr} (hi : isAccess i = true) : (∃ v, i = .bwr v) ∨ isReplaySafe i = true := by
  cases i with
  | bwr v => exact .inl ⟨v, rfl⟩
  | _ => exact .inr hi

theorem Completes.consistent_of_isReplaySafe {i : Instr} {s t : State} (h : Completes s i t)
    (hi : isReplaySafe i = true) (hs : s.buf.consistent s.cfg.capacity = true) :
    t.buf.consistent t.cfg.capacity = true := by
  cases h with
  | brd => exact Buf.consistent_read hs
  | bclr | bwr | bsave | bret | bretFault | cmp | cmpUninit | cmpZero | clsf | clsfFault => cases hi
  | _ => exact hs

/-- A write moves the write side that the return will find. -/
theorem ReturnsTo.push {s₀ s : State} (h : ReturnsTo s₀ s) (hs : s.buf.consistent s.cfg.capacity = true) (v : Sample)
    (r : Response) :
    ReturnsTo (s₀.putAll [v]) (State.respond { s with buf := s.buf.push s.cfg.capacity v } r) where
  cfg := h.cfg
  store := congrArg₂ (Memory.write · v ·) h.wr h.store
  wr := congrArg₂ (fun (c : Config) wr => advance c.capacity wr) h.cfg h.wr
  ckRd := h.ckRd
  ckFull := h.ckFull
  ckv := h.ckv
  rd_lt := Buf.rd_lt_of_consistent (Buf.consistent_push hs v)

/-- `t` has a consistent buffer and, unless a fault has stopped it (R173), all that a return to the read point of `s`
needs. -/
structure ReturnsUnlessFaulted (s t : State) : Prop where
  consistent : t.buf.consistent t.cfg.capacity = true
  returnsTo : t.flt.fault = false → ReturnsTo s t

/-- A command of R204 keeps the checkpoint; what it writes goes behind the read point. -/
theorem ReturnsUnlessFaulted.exec {i : Instr} {s₀ s t : State} (h : ReturnsUnlessFaulted s₀ s)
    (hi : isAccess i = true) (he : exec i s = .next t) :
    ReturnsUnlessFaulted (s₀.putAll (writtenSamples [i])) t := by
  obtain ⟨hf, hc⟩ | ⟨hf, r, rfl⟩ := exec_next he
  case inr => exact ⟨h.consistent, fun hlive => nomatch hf.symm.trans hlive⟩
  have hret := h.returnsTo hf
  obtain ⟨v, rfl⟩ | hsafe := bwr_or_isReplaySafe hi
  · cases hc
    exact ⟨Buf.consistent_push h.consistent v, fun _ => hret.push h.consistent v _⟩
  · rw [writtenSamples_of_isReplaySafe hsafe]
    exact ⟨hc.consistent_of_isReplaySafe hsafe h.consistent, fun _ => hret.completes hsafe hc⟩

/-- A run of commands of R204 completes, with all that they wrote behind the read point; without a fault of their own
the block stays live. -/
theorem runCommands_access {cmds : List Instr} (hc : cmds.all isAccess = true) {s₀ s : State}
    (h : ReturnsUnlessFaulted s₀ s) :
    ∃ rs u, runCommands cmds s = some (rs, u) ∧ ReturnsUnlessFaulted (s₀.putAll (writtenSamples cmds)) u ∧
      (cmds.all neverFaults = true → s.flt.fault = false → u.flt.fault = false) := by
  induction cmds generalizing s₀ s with
  | nil => exact ⟨[], s, rfl, h, fun _ hf => hf⟩
  | cons i is ih =>
    rw [List.all_cons, Bool.and_eq_true] at hc
    obtain ⟨hi, his⟩ := hc
    obtain ⟨t, he⟩ := exec_total (Buf.rd_lt_of_consistent h.consistent) (Buf.wr_lt_of_consistent h.consistent) i
    obtain ⟨rs, u, hrun, hu, hlive⟩ := ih his (h.exec hi he)
    rw [← State.putAll_append, ← writtenSamples_cons] at hu
    refine ⟨_, u, by rw [runCommands_cons he, hrun]; rfl, hu, fun hn hf => ?_⟩
    rw [List.all_cons, Bool.and_eq_true] at hn
    exact hlive hn.2 ((exec_live hf he).live_of_neverFaults hn.1 hf)

/-- Settles O26: the return restores the saved read point in front of everything written since, and `Buf.unread_putAll`
and `Buf.empty_putAll` say what is unread from there. -/
theorem staleCheckpointCases : Obligations.StaleCheckpointCases := by
  intro s cmds hf h hc
  obtain ⟨rs, u, hrun, hu, hlive⟩ := runCommands_access hc
    (s := State.respond { s with buf := s.buf.save } 0#64) ⟨h, fun _ => .saved (Buf.rd_lt_of_consistent h) 0#64⟩
  have hsave : runCommands (.bsave :: cmds) s = some (0#64 :: rs, u) := by
    rw [runCommands_cons (exec_bsave hf), hrun]
    rfl
  refine ⟨_, u, hsave, fun hn => hlive hn hf, fun hfu => ?_⟩
  have hback := hu.returnsTo hfu
  have hret : runCommands [.bret] u = some ([0#64], State.respond { u with buf := u.buf.restore } 0#64) := by
    rw [runCommands_cons (exec_bret hfu hback.ckv)]
    rfl
  refine ⟨_, runCommands_append hsave hret, ?_⟩
  rw [State.respond_buf, hback.restore]
  refine ⟨fun ha => ?_, fun ha hfull => Buf.empty_putAll h hfull ha⟩
  have hunread := Buf.unread_putAll h (vs := writtenSamples cmds)
    (by have := Buf.capacity_pos_of_consistent h; omega)
  refine ⟨?_, hunread⟩
  have hlen := congrArg List.length hunread
  rwa [List.length_append, List.length_map, Buf.unread_length, Buf.unread_length] at hlen

end Sys2Proof.Machine

/-! SUPPORT. Binary64 magnitudes by significand and exponent, and their patterns (R13, R17; log 11): `fmt64` and `bits64`
are inverse to each other on the patterns that are no NaN. -/

namespace Sys2Proof.Machine

/-- `q * 2^k` is a binary64 magnitude written with its own significand and exponent: `q` has at most 53 bits, and all of
them unless the exponent is the least one. -/
structure Canonical (q k : Nat) : Prop where
  lt : q < 2 ^ 53
  full : k = 0 ∨ 2 ^ 52 ≤ q

/-- The exponent is what the length of the magnitude leaves above 53 bits. -/
theorem Canonical.log2_sub {q k : Nat} (h : Canonical q k) : Nat.log2 (q * 2 ^ k) - 52 = k := by
  obtain ⟨hq, hfull⟩ := h
  rcases Nat.eq_zero_or_pos q with rfl | hpos
  · obtain rfl : k = 0 := by omega
    rfl
  have h0 : q * 2 ^ k ≠ 0 := Nat.mul_ne_zero hpos.ne' (Nat.two_pow_pos k).ne'
  have hup : Nat.log2 (q * 2 ^ k) < k + 53 := (Nat.log2_lt h0).mpr (Nat.mul_comm q _ ▸ two_pow_mul_lt k hq)
  obtain rfl | hfull := hfull
  · omega
  · have hlow : 52 + k ≤ Nat.log2 (q * 2 ^ k) := by
      rw [Nat.le_log2 h0, Nat.pow_add]
      exact Nat.mul_le_mul_right _ hfull
    omega

/-- Bits 62:0 of the pattern: the exponent above the significand, whose top bit adds 1 to the exponent field. -/
theorem Canonical.magBits_eq {q k : Nat} (h : Canonical q k) : magBits (q * 2 ^ k) = 2 ^ 52 * k + q := by
  simp only [magBits, h.log2_sub, Nat.mul_div_cancel _ (Nat.two_pow_pos k)]

/-- Every number is the exponent and the significand of one magnitude. -/
theorem exists_canonical (x : Nat) : ∃ q k, Canonical q k ∧ x = 2 ^ 52 * k + q := by
  by_cases hx : x < 2 ^ 52
  · exact ⟨x, 0, ⟨by omega, .inl rfl⟩, by omega⟩
  · exact ⟨2 ^ 52 + x % 2 ^ 52, x / 2 ^ 52 - 1, ⟨by omega, .inr (by omega)⟩, by omega⟩

/-- The magnitude `fmt64` reads from the exponent and fraction fields, bits 62:0 of a pattern taken as the number `x`
(`fmt64_append`). -/
def patternMag (x : Nat) : Nat :=
  if x / 2 ^ 52 = 0 then x % 2 ^ 52 else 2 ^ (x / 2 ^ 52 - 1) * (2 ^ 52 + x % 2 ^ 52)

theorem Canonical.patternMag_eq {q k : Nat} (h : Canonical q k) : patternMag (2 ^ 52 * k + q) = q * 2 ^ k := by
  obtain ⟨hq, hfull⟩ := h
  unfold patternMag
  by_cases hsub : q < 2 ^ 52
  · obtain rfl : k = 0 := by omega
    rw [if_pos (by omega)]
    omega
  · have hexp : (2 ^ 52 * k + q) / 2 ^ 52 = k + 1 := by omega
    have hfrac : 2 ^ 52 + (2 ^ 52 * k + q) % 2 ^ 52 = q := by omega
    rw [hexp, hfrac, if_neg k.succ_ne_zero, Nat.mul_comm, Nat.add_sub_cancel]

theorem magBits_patternMag (x : Nat) : magBits (patternMag x) = x := by
  obtain ⟨q, k, h, rfl⟩ := exists_canonical x
  rw [h.patternMag_eq, h.magBits_eq]

/-- Every pattern is a sign and a number of 63 bits. -/
theorem exists_eq_sign_append (b : F64) : ∃ neg x, x < 2 ^ 63 ∧ b = bit 1 neg ++ BitVec.ofNat 63 x := by
  refine ⟨b.msb, (b.setWidth 63).toNat, (b.setWidth 63).isLt, ?_⟩
  rw [BitVec.ofNat_toNat]
  conv_lhs => rw [← BitVec.cons_msb_setWidth (w := 63) b]
  cases b.msb <;> rfl

/-- `fmt64` of the pattern with sign `neg` and bits 62:0 `x`. -/
theorem fmt64_append (neg : Bool) {x : Nat} (hx : x < 2 ^ 63) :
    fmt64 (bit 1 neg ++ BitVec.ofNat 63 x) =
      if x / 2 ^ 52 = 2047 then (if x % 2 ^ 52 = 0 then .inf neg else .nan) else .fin neg (patternMag x) := by
  have hsign : (bit 1 neg ++ BitVec.ofNat 63 x).getLsbD 63 = neg := by
    rw [BitVec.getLsbD_append, if_neg (by decide)]
    cases neg <;> rfl
  have hexp : ((bit 1 neg ++ BitVec.ofNat 63 x).extractLsb' 52 11).toNat = x / 2 ^ 52 := by
    rw [BitVec.extractLsb'_append_eq_of_add_le (by decide), BitVec.extractLsb'_toNat, BitVec.toNat_ofNat,
      Nat.shiftRight_eq_div_pow]
    omega
  have hfrac : ((bit 1 neg ++ BitVec.ofNat 63 x).extractLsb' 0 52).toNat = x % 2 ^ 52 := by
    rw [BitVec.extractLsb'_append_eq_of_add_le (by decide), BitVec.extractLsb'_toNat, BitVec.toNat_ofNat,
      Nat.shiftRight_zero]
    omega
  simp only [fmt64, hsign, hexp, hfrac, patternMag]
  split
  · rfl
  · split <;> rfl

theorem bits64_inf (nan : BitVec 52) (neg : Bool) :
    bits64 nan (.inf neg) = bit 1 neg ++ BitVec.ofNat 63 (2047 * 2 ^ 52) := by
  cases neg <;> rfl

/-- Settles O27: the pattern is a sign and a number `x`; its magnitude is `patternMag x`, whose pattern is `x` again. -/
theorem patternsRoundTripThroughValues : Obligations.PatternsRoundTripThroughValues := by
  intro b nan hnan
  obtain ⟨neg, x, hx, rfl⟩ := exists_eq_sign_append b
  rw [fmt64_append neg hx] at hnan ⊢
  split
  next hexp =>
    have hfrac : x % 2 ^ 52 = 0 := by
      by_contra hfrac
      exact hnan (by rw [if_pos hexp, if_neg hfrac])
    rw [if_pos hfrac, bits64_inf, show 2047 * 2 ^ 52 = x by omega]
  next => rw [bits64, magBits_patternMag]

theorem fmt64_bits64_inf (nan : BitVec 52) (neg : Bool) : fmt64 (bits64 nan (.inf neg)) = .inf neg := by
  rw [bits64_inf, fmt64_append neg (by decide), if_pos (by decide), if_pos (by decide)]

/-- A magnitude below the limit has a pattern, which denotes it. -/
theorem Canonical.fmt64_bits64 {q k : Nat} (h : Canonical q k) (hlim : q * 2 ^ k < Fp.limit) (nan : BitVec 52)
    (neg : Bool) : fmt64 (bits64 nan (.fin neg (q * 2 ^ k))) = .fin neg (q * 2 ^ k) := by
  have hbits := magBits_lt hlim
  rw [h.magBits_eq] at hbits
  rw [bits64, h.magBits_eq, fmt64_append neg (by omega), if_neg (by omega), h.patternMag_eq]

end Sys2Proof.Machine

/-! SUPPORT. Rounding to nearest, ties to even (log 11). Which of two magnitudes is nearer to `n / d` is said of their
middle: the rounded one wins against `m` when the middle is not on its own side of `n / d`. -/

namespace Sys2Proof.Machine

/-! ### Distances -/

/-- `a` is as near to `n / d` as `b`: their middle does not lie on `a`'s side of `n / d`. -/
structure AsNear (n d a b : Nat) : Prop where
  below : b < a → (b + a) * d ≤ 2 * n
  above : a < b → 2 * n ≤ (b + a) * d

/-- `AsNear` compares the distances, here multiplied by `d`. -/
theorem AsNear.dist_le {n d a b : Nat} (h : AsNear n d a b) (hd : 0 < d) :
    ((a : Int) * d - n).natAbs ≤ ((b : Int) * d - n).natAbs := by
  obtain ⟨hbelow, habove⟩ := h
  rw [Nat.add_mul] at hbelow habove
  rw [← Int.natCast_mul, ← Int.natCast_mul]
  rcases Nat.lt_trichotomy a b with hlt | rfl | hgt
  · have := Nat.mul_lt_mul_of_pos_right hlt hd
    have := habove hlt
    omega
  · rfl
  · have := Nat.mul_lt_mul_of_pos_right hgt hd
    have := hbelow hgt
    omega

/-- Two magnitudes are equally far from `n / d` only when it is their middle. -/
theorem middle_of_dist_eq {n d a b : Nat} (hd : 0 < d) (hne : b ≠ a)
    (h : ((a : Int) * d - n).natAbs = ((b : Int) * d - n).natAbs) : (b + a) * d = 2 * n := by
  have hmul : b * d ≠ a * d := fun he => hne (Nat.eq_of_mul_eq_mul_right hd he)
  rw [← Int.natCast_mul, ← Int.natCast_mul] at h
  rw [Nat.add_mul]
  omega

/-! ### Rounding to an integer -/

/-- The integer is at most half a unit away from `n / d`, and even when it is exactly half a unit away. -/
theorem roundEven_near (n : Nat) {d : Nat} (hd : 0 < d) :
    2 * (roundEven n d * d) ≤ 2 * n + d ∧ 2 * n ≤ 2 * (roundEven n d * d) + d ∧
    (2 * (roundEven n d * d) = 2 * n + d ∨ 2 * n = 2 * (roundEven n d * d) + d → roundEven n d % 2 = 0) := by
  have hn := Nat.div_add_mod' n d
  have hr := Nat.mod_lt n hd
  simp only [roundEven]
  split
  next => omega
  next =>
    split
    next => rw [Nat.add_one_mul (n / d)]; omega
    next =>
      rcases Nat.mod_two_eq_zero_or_one (n / d) with he | ho
      · rw [he, Nat.add_zero]; omega
      · rw [ho, Nat.add_one_mul (n / d)]; omega

theorem add_one_mul_le_of_lt {a b : Nat} (h : a < b) (d : Nat) : a * d + d ≤ b * d :=
  Nat.succ_mul a d ▸ Nat.mul_le_mul_right d h

theorem roundEven_asNear (n : Nat) {d : Nat} (hd : 0 < d) (m : Nat) : AsNear n d (roundEven n d) m := by
  obtain ⟨hup, hlow, -⟩ := roundEven_near n hd
  constructor
  · intro h
    have := add_one_mul_le_of_lt h d
    rw [Nat.add_mul]
    omega
  · intro h
    have := add_one_mul_le_of_lt h d
    rw [Nat.add_mul]
    omega

theorem roundEven_even_of_middle {n d m : Nat} (hd : 0 < d) (hne : m ≠ roundEven n d)
    (h : (m + roundEven n d) * d = 2 * n) : roundEven n d % 2 = 0 := by
  obtain ⟨hup, hlow, heven⟩ := roundEven_near n hd
  rw [Nat.add_mul] at h
  apply heven
  rcases Nat.lt_or_gt_of_ne hne with hlt | hgt
  · have := add_one_mul_le_of_lt hlt d
    omega
  · have := add_one_mul_le_of_lt hgt d
    omega

/-! ### Rounding to 53 bits -/

/-- The exponent of the last of the 53 bits that rounding keeps of `n / d`. -/
def roundExp (n d : Nat) : Nat := Nat.log2 (n / d) - 52

/-- The significand that rounding gives, `2^53` when the last bit carries out of all 53. -/
def roundSig (n d : Nat) : Nat := roundEven n (d * 2 ^ roundExp n d)

theorem roundMag_eq (n d : Nat) : roundMag n d = roundSig n d * 2 ^ roundExp n d := rfl

theorem mul_two_pow_roundExp_pos (n : Nat) {d : Nat} (hd : 0 < d) : 0 < d * 2 ^ roundExp n d :=
  Nat.mul_pos hd (Nat.two_pow_pos _)

/-- In units of its last kept bit the quotient has at most 53 bits, and all of them unless that unit is 1. -/
theorem div_roundExp_canonical (n d : Nat) : Canonical (n / (d * 2 ^ roundExp n d)) (roundExp n d) := by
  rw [← Nat.div_div_eq_div_mul, roundExp]
  generalize n / d = x
  constructor
  · rw [Nat.div_lt_iff_lt_mul (Nat.two_pow_pos _), ← Nat.pow_add]
    exact Nat.lt_log2_self.trans_le (Nat.pow_le_pow_right Nat.two_pos (by omega))
  · by_cases h : Nat.log2 x ≤ 52
    · exact .inl (by omega)
    · have hx : x ≠ 0 := by
        rintro rfl
        simp at h
      refine .inr ((Nat.le_div_iff_mul_le (Nat.two_pow_pos _)).mpr ?_)
      rw [← Nat.pow_add]
      exact (Nat.pow_le_pow_right Nat.two_pos (by omega)).trans (Nat.log2_self_le hx)

theorem roundSig_le (n d : Nat) : roundSig n d ≤ 2 ^ 53 :=
  (roundEven_le ..).trans (div_roundExp_canonical n d).lt

theorem roundSig_full (n d : Nat) : roundExp n d = 0 ∨ 2 ^ 52 ≤ roundSig n d :=
  (div_roundExp_canonical n d).full.imp_right fun h => h.trans (le_roundEven ..)

/-- The rounded magnitude by its own significand and exponent; a carry out of 53 bits leaves an even significand. -/
theorem roundMag_canonical (n d : Nat) :
    ∃ q k, Canonical q k ∧ roundMag n d = q * 2 ^ k ∧ (roundSig n d % 2 = 0 → q % 2 = 0) := by
  rw [roundMag_eq]
  obtain hlt | hcarry := (roundSig_le n d).lt_or_eq
  · exact ⟨roundSig n d, roundExp n d, ⟨hlt, roundSig_full n d⟩, rfl, id⟩
  · refine ⟨2 ^ 52, roundExp n d + 1, ⟨by decide, .inr le_rfl⟩, ?_, fun _ => by decide⟩
    rw [hcarry, ← Nat.pow_add, ← Nat.pow_add]
    congr 1
    omega

theorem roundMag_representable (n d : Nat) : Representable (roundMag n d) := by
  obtain ⟨q, k, hqk, heq, -⟩ := roundMag_canonical n d
  exact ⟨q, k, hqk.lt, heq⟩

/-- Settles O28: a finite result is a magnitude below the limit (`roundMag_canonical`), and infinity has its pattern. -/
theorem roundedValuesHaveAPattern : Obligations.RoundedValuesHaveAPattern := by
  intro neg n d nan _
  obtain ⟨q, k, hqk, heq, -⟩ := roundMag_canonical n d
  simp only [Fp.round, heq]
  split
  next hlim => exact hqk.fmt64_bits64 hlim nan neg
  next => exact fmt64_bits64_inf nan neg

/-- A representable magnitude is a multiple of `2^k`, or lies below all those whose last place is `2^k`. -/
theorem Representable.multiple_or_lt {m : Nat} (h : Representable m) (k : Nat) :
    (∃ q, m = q * 2 ^ k) ∨ (k ≠ 0 ∧ m < 2 ^ 52 * 2 ^ k) := by
  obtain ⟨q, j, hq, rfl⟩ := h
  rcases Nat.lt_or_ge j k with hjk | hkj
  · refine .inr ⟨by omega, ?_⟩
    calc q * 2 ^ j = 2 ^ j * q := Nat.mul_comm ..
      _ < 2 ^ (j + 53) := two_pow_mul_lt j hq
      _ ≤ 2 ^ (52 + k) := Nat.pow_le_pow_right Nat.two_pos (by omega)
      _ = 2 ^ 52 * 2 ^ k := Nat.pow_add ..
  · exact .inl ⟨q * 2 ^ (j - k), by rw [Nat.mul_assoc, ← Nat.pow_add, Nat.sub_add_cancel hkj]⟩

/-- The middle of the rounded magnitude and another multiple of its last place, in units of that place. -/
theorem middle_of_multiple (n d q : Nat) :
    (q * 2 ^ roundExp n d + roundMag n d) * d = (q + roundSig n d) * (d * 2 ^ roundExp n d) := by
  rw [roundMag_eq, ← Nat.add_mul]
  ac_rfl

/-- A magnitude below those with the rounded one's last place is smaller than it, and strictly farther from `n / d`. -/
theorem roundMag_nearer_of_lt {n d m : Nat} (hd : 0 < d) (hk : roundExp n d ≠ 0)
    (hm : m < 2 ^ 52 * 2 ^ roundExp n d) : m < roundMag n d ∧ (m + roundMag n d) * d < 2 * n := by
  have hpos := mul_two_pow_roundExp_pos n hd
  have hfull : 2 ^ 52 ≤ roundSig n d := (roundSig_full n d).resolve_left hk
  have hleast : 2 ^ 52 * (d * 2 ^ roundExp n d) ≤ n :=
    (Nat.le_div_iff_mul_le hpos).mp ((div_roundExp_canonical n d).full.resolve_left hk)
  have hmid : (2 ^ 52 + roundSig n d) * (d * 2 ^ roundExp n d) ≤ 2 * n := by
    obtain heq | hlt := hfull.eq_or_lt
    · rw [← heq, ← Nat.two_mul, Nat.mul_assoc]
      exact Nat.mul_le_mul_left 2 hleast
    · exact (roundEven_asNear n hpos (2 ^ 52)).below hlt
  refine ⟨hm.trans_le (Nat.mul_le_mul_right _ hfull), ?_⟩
  calc (m + roundMag n d) * d < (2 ^ 52 * 2 ^ roundExp n d + roundMag n d) * d :=
        Nat.mul_lt_mul_of_pos_right (Nat.add_lt_add_right hm _) hd
    _ ≤ 2 * n := middle_of_multiple n d _ ▸ hmid

/-- No representable magnitude is nearer to `n / d` than the rounded one. -/
theorem roundMag_asNear {n d m : Nat} (hd : 0 < d) (hm : Representable m) : AsNear n d (roundMag n d) m := by
  obtain ⟨q, rfl⟩ | ⟨hk, hlt⟩ := hm.multiple_or_lt (roundExp n d)
  · have hq := roundEven_asNear n (mul_two_pow_roundExp_pos n hd) q
    constructor <;> intro h <;> rw [middle_of_multiple]
    · exact hq.below (Nat.lt_of_mul_lt_mul_right h)
    · exact hq.above (Nat.lt_of_mul_lt_mul_right h)
  · obtain ⟨hbelow, hmid⟩ := roundMag_nearer_of_lt hd hk hlt
    exact ⟨fun _ => hmid.le, fun h => absurd h hbelow.not_gt⟩

/-- When `n / d` is the middle of two representable magnitudes, the rounded one has an even significand. -/
theorem roundMag_even_of_middle {n d m : Nat} (hd : 0 < d) (hm : Representable m) (hne : m ≠ roundMag n d)
    (h : (m + roundMag n d) * d = 2 * n) :
    ∃ q k, q < 2 ^ 53 ∧ q % 2 = 0 ∧ roundMag n d = q * 2 ^ k ∧ (k = 0 ∨ 2 ^ 52 ≤ q) := by
  have heven : roundSig n d % 2 = 0 := by
    obtain ⟨q, rfl⟩ | ⟨hk, hlt⟩ := hm.multiple_or_lt (roundExp n d)
    · rw [middle_of_multiple] at h
      exact roundEven_even_of_middle (mul_two_pow_roundExp_pos n hd) (fun he => hne (congrArg (· * _) he)) h
    · exact absurd h (roundMag_nearer_of_lt hd hk hlt).2.ne
  obtain ⟨q, k, hqk, heq, hq⟩ := roundMag_canonical n d
  exact ⟨q, k, hqk.lt, hq heven, heq, hqk.full⟩

/-- Settles O29: the three clauses are `roundMag_representable`, `roundMag_asNear` and `roundMag_even_of_middle`. -/
theorem roundingIsToNearestTiesToEven : Obligations.RoundingIsToNearestTiesToEven := fun n d hd =>
  ⟨roundMag_representable n d, fun _ hm => (roundMag_asNear hd hm).dist_le hd,
    fun _ hm hne ht => roundMag_even_of_middle hd hm hne (middle_of_dist_eq hd hne ht)⟩

theorem Fp.unit_eq : Fp.unit = 2 ^ 1074 := by unfold Fp.unit; rfl

/-- Settles O30: `cvt_of_lt`, with the unit written out. -/
theorem conversionIsExactBelowTwoToThe53 : Obligations.ConversionIsExactBelowTwoToThe53 := by
  intro i hi
  rw [cvt_of_lt hi, Fp.unit_eq, Nat.mul_comm]

end Sys2Proof.Machine

/-! SUPPORT. The square root is correctly rounded (R17, log 11): the integer that `fsqrt` rounds in place of twice the root
lies on the same side of the middle of any two representable magnitudes. -/

namespace Sys2Proof.Machine

/-- Each round keeps the root between `r` and `r + 2^k`. -/
theorem isqrtFrom_floor {n k r : Nat} (hlow : r * r ≤ n) (hup : n < (r + 2 ^ k) * (r + 2 ^ k)) :
    isqrtFrom n k r * isqrtFrom n k r ≤ n ∧ n < (isqrtFrom n k r + 1) * (isqrtFrom n k r + 1) := by
  induction k generalizing r with
  | zero => exact ⟨hlow, hup⟩
  | succ k ih =>
    rw [isqrtFrom]
    split
    next hbit => exact ih hbit (by rwa [Nat.add_assoc, ← Nat.two_mul, ← Nat.pow_succ'])
    next hbit => exact ih hlow (Nat.lt_of_not_ge hbit)

theorem isqrt_floor (n : Nat) : isqrt n * isqrt n ≤ n ∧ n < (isqrt n + 1) * (isqrt n + 1) := by
  refine isqrtFrom_floor (Nat.zero_le n) ?_
  rw [Nat.zero_add, ← Nat.pow_add]
  exact Nat.lt_log2_self.trans_le (Nat.pow_le_pow_right Nat.two_pos (by omega))

/-- What `fsqrt` rounds, in half units: twice the root of `a`, or the odd number next to it where the root is irrational
(`fsqrt_eq_round`). -/
def rootHalves (a : Nat) : Nat := if isqrt a * isqrt a = a then 2 * isqrt a else 2 * isqrt a + 1

theorem fsqrt_eq_round {mag : Nat} (h : mag ≠ 0) :
    fsqrt (.fin false mag) = Fp.round false (rootHalves (Fp.unit * mag)) 2 := by
  simp [fsqrt, h, rootHalves]

theorem rootHalves_div_two (a : Nat) : rootHalves a / 2 = isqrt a := by
  unfold rootHalves
  split <;> omega

theorem rootHalves_cases (a : Nat) :
    (∃ r, rootHalves a = 2 * r ∧ r * r = a) ∨
    (∃ r, rootHalves a = 2 * r + 1 ∧ r * r < a ∧ a < (r + 1) * (r + 1)) := by
  obtain ⟨hlow, hup⟩ := isqrt_floor a
  unfold rootHalves
  split
  next hsq => exact .inl ⟨_, rfl, hsq⟩
  next hsq => exact .inr ⟨_, rfl, by omega, hup⟩

/-- A number up to twice the root is one up to `rootHalves`, when it is not the odd number put for an irrational root. -/
theorem sq_le_of_le_rootHalves {a x : Nat} (h : x ≤ rootHalves a) (hodd : rootHalves a % 2 = 1 → x ≠ rootHalves a) :
    x * x ≤ 4 * a := by
  obtain ⟨r, hr, rfl⟩ | ⟨r, hr, hlow, -⟩ := rootHalves_cases a
  · have := Nat.mul_self_le_mul_self (hr ▸ h)
    linarith
  · have hx : x ≤ 2 * r := by omega
    have := Nat.mul_self_le_mul_self hx
    linarith

theorem le_sq_of_rootHalves_le {a x : Nat} (h : rootHalves a ≤ x) (hodd : rootHalves a % 2 = 1 → x ≠ rootHalves a) :
    4 * a ≤ x * x := by
  obtain ⟨r, hr, rfl⟩ | ⟨r, hr, -, hup⟩ := rootHalves_cases a
  · have := Nat.mul_self_le_mul_self (hr ▸ h)
    linarith
  · have hx : 2 * (r + 1) ≤ x := by omega
    have := Nat.mul_self_le_mul_self hx
    linarith

theorem eq_rootHalves_of_sq {a x : Nat} (h : x * x = 4 * a) : x = rootHalves a := by
  obtain ⟨r, hr, rfl⟩ | ⟨r, hr, hlow, hup⟩ := rootHalves_cases a
  · rw [hr, ← Nat.mul_self_inj]
    linarith
  · have hgt : 2 * r < x := Nat.mul_self_lt_mul_self_iff.mp (by linarith)
    have hlt : x < 2 * (r + 1) := Nat.mul_self_lt_mul_self_iff.mp (by linarith)
    omega

/-- An odd number of half units is no middle of the rounded magnitude and another one, when the last place is coarser
than the unit: multiples of it have an integer as their middle. -/
theorem add_roundMag_ne_of_odd {p m : Nat} (hk : roundExp p 2 ≠ 0) (hodd : p % 2 = 1) (hm : Representable m) :
    m + roundMag p 2 ≠ p := by
  intro heq
  obtain ⟨q, rfl⟩ | ⟨-, hlt⟩ := hm.multiple_or_lt (roundExp p 2)
  · have heven : 2 ∣ (q + roundSig p 2) * 2 ^ roundExp p 2 := (dvd_pow_self 2 hk).mul_left _
    rw [roundMag_eq, ← Nat.add_mul] at heq
    omega
  · have := (roundMag_nearer_of_lt Nat.two_pos hk hlt).2
    omega

/-- Unit and limit as powers of two, the numerals out of sight: the exponents are far apart, and both are large. -/
theorem Fp.unit_limit_eq_two_pow : ∃ k j, 106 ≤ k ∧ k < j ∧ Fp.unit = 2 ^ k ∧ Fp.limit = 2 ^ (j + 1) :=
  ⟨1074, 2097, by decide, by decide, Fp.unit_eq, Fp.limit_eq.trans (congrArg (2 ^ ·) (by decide))⟩

/-- The root of a positive magnitude has a last place coarser than the unit. -/
theorem roundExp_rootHalves_ne_zero {mag : Nat} (h : 0 < mag) : roundExp (rootHalves (Fp.unit * mag)) 2 ≠ 0 := by
  have hroot : 2 ^ 53 ≤ isqrt (Fp.unit * mag) := by
    obtain ⟨k, -, hk, -, hu, -⟩ := Fp.unit_limit_eq_two_pow
    rw [hu]
    exact two_pow_le_isqrt ((Nat.pow_le_pow_right Nat.two_pos hk).trans (Nat.le_mul_of_pos_right _ h))
  have hlog := (Nat.le_log2 (by omega)).mpr hroot
  rw [roundExp, rootHalves_div_two]
  omega

/-- The root of a finite magnitude is finite. -/
theorem fsqrt_eq_fin {mag : Nat} (h : 0 < mag) (hlim : mag < Fp.limit) :
    fsqrt (.fin false mag) = .fin false (roundMag (rootHalves (Fp.unit * mag)) 2) := by
  obtain ⟨k, j, -, hkj, hu, hl⟩ := Fp.unit_limit_eq_two_pow
  have hsq : Fp.unit * mag < 2 ^ (2 * j) :=
    calc Fp.unit * mag < 2 ^ k * 2 ^ (j + 1) := hu ▸ Nat.mul_lt_mul_of_pos_left (hl ▸ hlim) Fp.unit_pos
      _ = 2 ^ (k + (j + 1)) := (Nat.pow_add ..).symm
      _ ≤ 2 ^ (2 * j) := Nat.pow_le_pow_right Nat.two_pos (by omega)
  obtain ⟨r, -, hr⟩ := fsqrt_fin_bound hsq hl.ge
  rw [hr, Fp.round_eq_fin ((fsqrt_eq_round h.ne').symm.trans hr)]

/-- Settles O31: the floor is `isqrt_floor`. The root is `rootHalves` rounded, which is twice the root itself, or an odd
number that is the middle of no two magnitudes (`add_roundMag_ne_of_odd`) and so decides as the root does. -/
theorem integerSquareRootIsFloor : Obligations.IntegerSquareRootIsFloor := by
  refine ⟨isqrt_floor, fun mag h0 hlim => ⟨_, fsqrt_eq_fin h0 hlim, roundMag_representable _ _, fun m hm => ?_,
    fun m hm hne hsq => ?_⟩, fun neg => by simp [fsqrt], rfl, fun mag h0 => by simp [fsqrt, h0.ne'], rfl, rfl⟩
  · have hodd := fun ho => add_roundMag_ne_of_odd (roundExp_rootHalves_ne_zero h0) ho hm
    obtain ⟨hbelow, habove⟩ := roundMag_asNear (n := rootHalves (Fp.unit * mag)) Nat.two_pos hm
    exact ⟨fun hlt => sq_le_of_le_rootHalves (by have := hbelow hlt; omega) hodd,
      fun hlt => le_sq_of_rootHalves_le (by have := habove hlt; omega) hodd⟩
  · have hmid := eq_rootHalves_of_sq hsq
    exact roundMag_even_of_middle Nat.two_pos hm hne (by omega)

end Sys2Proof.Machine

/-! SUPPORT. The model's own stop (R51, log 8): one rule per command that accesses the store through a cursor that is no
cell. -/

namespace Sys2Proof.Machine

theorem Buf.not_readable {n : Nat} {b : Buf} (h : n ≤ b.rd) (he : b.empty = false) : b.readable n = false := by
  simp [Buf.readable, he, h]

/-- An entry with samples to compare stops the search when the read cursor is no cell. -/
theorem search_cons_of_not_readable {s : State} {e : DictEntry} (es : List DictEntry) (i : Nat) (best : Best) {g : Smp}
    (h : smpReset s.opr.itv s.opr.spd e.code = .ok g) (hz : g.rem ≠ 0#32)
    (hr : s.buf.readable s.cfg.capacity = false) : search (e :: es) i best s = .outside s.buf.rd := by
  simp [search, h, hz, hr]

section Stops

variable {s : State} (hf : s.flt.fault = false)
include hf

theorem exec_bwr_stops (hw : s.cfg.capacity ≤ s.buf.wr) (v : Sample) :
    exec (.bwr v) s = .fault (.cellOutsideStore s.buf.wr) :=
  (whenLive_live hf _).trans (if_neg (Nat.not_lt.mpr hw))

theorem exec_brd_stops (hr : s.buf.readable s.cfg.capacity = false) :
    exec .brd s = .fault (.cellOutsideStore s.buf.rd) :=
  (whenLive_live hf _).trans (if_neg (by simp [hr]))

theorem exec_cmp_stops (hr : s.buf.readable s.cfg.capacity = false) (hi : s.smp.sInit = true)
    (hz : s.smp.rem ≠ 0#32) : exec .cmp s = .fault (.cellOutsideStore s.buf.rd) :=
  (whenLive_live hf _).trans <| (if_neg (by simp [hi])).trans <| (if_neg hz).trans (if_neg (by simp [hr]))

theorem exec_clsf_stops (hr : s.buf.readable s.cfg.capacity = false) {j : Nat} (hs : s.searchAll = .outside j) :
    exec .clsf s = .fault (.cellOutsideStore s.buf.rd) :=
  (whenLive_live hf _).trans (if_neg (by simp [hr, hs, SearchEnd.inStore]))

end Stops

/-- Settles O21: with the invariant the cursors are cells, so that every command answers (`exec_total`). -/
theorem cursorOutsideTheStoreStops : Obligations.CursorOutsideTheStoreStops := by
  refine ⟨fun s i f hinv hstop => ?_, fun s hf => ⟨fun v hw => exec_bwr_stops hf hw v,
    fun hr he => exec_brd_stops hf (Buf.not_readable hr he), fun hr he => exec_cmp_stops hf (Buf.not_readable hr he),
    fun e es g hr he hd hg hz => ?_⟩⟩
  · obtain ⟨t, ht⟩ := exec_total hinv.rd_lt hinv.wr_lt i
    cases hstop.symm.trans ht
  · have hr := Buf.not_readable hr he
    refine exec_clsf_stops hf hr (j := s.buf.rd) ?_
    rw [State.searchAll, hd]
    exact search_cons_of_not_readable (s := s.clearUndr) es 0 Best.start hg hz hr

end Sys2Proof.Machine
